-- ==== Sys2Proof/Word.lean ====
section
/-! DEFINITION. The word types of the WS2812B encoder (spec/00_scope.md R10, spec/10_state.md R21,
spec/20_memory.md R50): a bit vector where the spec speaks of the bits of a register or a field, a
natural number where it only compares or counts. -/

namespace Sys2Proof

/-- One 64-bit word on the command or the notification port (R80, `CMD_W` = 64). -/
abbrev Word := BitVec 64

/-- An 8-bit operand: a colour channel or the brightness (R88, `CH_BITS` = 8). -/
abbrev Byte := BitVec 8

/-- A peripheral handle, opaque (R24, `HANDLE_W` = 16). -/
abbrev Handle := BitVec 16

/-- A channel identifier, opaque (R25, `CHAN_W` = 8). -/
abbrev Chan := BitVec 8

/-- The identity of a peripheral instance, opaque (R10, `INST_W` = 16). -/
abbrev InstanceId := BitVec 16

/-- One slot value of `SLOT_W` bits (R50). `SLOT_W` is a parameter, so the bound `v < 2 ^ SLOT_W` is an
invariant (`Machine.Inv`), not part of the type; no rule adds to, shifts or masks a slot value
(notes/assumptions/12.md). -/
abbrev Slot := Nat

/-- Width of the `index` field of SetLed (R10). -/
abbrev idxW : Nat := 16

/-- Width of the `requested_led_count` field of Init and of `ALC` (R10). -/
abbrev countW : Nat := 16

end Sys2Proof
end

