-- ==== Sys2Proof/Config.lean ====
section
/-! DEFINITION. The configuration: the parameters of R9 and R10 (spec/00_scope.md), when they are well
formed (R11), and the one configuration the machine runs with, of which nothing is known but that it is
well formed. R27 (spec/10_state.md): the configuration is a parameter, never a field of State. -/

namespace Sys2Proof
namespace Config

/-- The order of the bytes of one slot in a byte-addressed mapping of the buffer (`BYTE_ORDER`, R10, R60;
notes/assumptions/8.md). -/
inductive ByteOrder where
  | little
  | big
  deriving DecidableEq, Repr, Inhabited

/-- The configuration parameters of R9 and R10, the constants of the width table apart (Sys2Proof/Word.lean). -/
structure Params where
  /-- `CAPACITY`: the maximum number of LEDs. -/
  capacity : Nat
  /-- `RESET_SLOT_COUNT`: the trailing zero slots of a transfer. -/
  resetSlotCount : Nat
  /-- `BIT_ZERO_DUTY`: the slot value of a 0 bit. -/
  bitZeroDuty : Slot
  /-- `BIT_ONE_DUTY`: the slot value of a 1 bit. -/
  bitOneDuty : Slot
  /-- `SLOT_W`: the width of a slot. -/
  slotW : Nat
  /-- `DMA_W`: the word width the transfer engine was configured with. -/
  dmaW : Nat
  /-- `INSTANCE_OF`: the peripheral a handle refers to; OPEN, any total function (R10, U14). -/
  instanceOf : Handle → InstanceId
  /-- `BYTE_ORDER`: OPEN, read by no operation (R60, U14). -/
  byteOrder : ByteOrder
  deriving Inhabited

/-- `BUF_LEN = CAPACITY * 24 + RESET_SLOT_COUNT` slots (R9, R30). -/
def Params.bufLen (c : Params) : Nat := c.capacity * 24 + c.resetSlotCount

/-- R11: every constraint of the tables of R9 and R10 holds, `DMA_W = SLOT_W` among them. -/
abbrev Params.WellFormed (c : Params) : Prop :=
  (1 ≤ c.capacity ∧ c.capacity ≤ 65535) ∧
  1 ≤ c.resetSlotCount ∧
  (c.slotW = 8 ∨ c.slotW = 16 ∨ c.slotW = 32) ∧
  c.dmaW = c.slotW ∧
  (c.bitZeroDuty ≠ 0 ∧ c.bitZeroDuty < 2 ^ c.slotW) ∧
  (c.bitOneDuty ≠ 0 ∧ c.bitOneDuty < 2 ^ c.slotW) ∧
  c.bitOneDuty ≠ c.bitZeroDuty

/-- The configuration of the source's worked scenario (spec/95_test_vectors.md): `CAPACITY = 3`,
`RESET_SLOT_COUNT = 6`, the identity for `INSTANCE_OF`, and R112's illustrative duty values 30 and 60.
For the tests; the machine does not run with it. -/
def scenario : Params where
  capacity := 3
  resetSlotCount := 6
  bitZeroDuty := 30
  bitOneDuty := 60
  slotW := 16
  dmaW := 16
  instanceOf := id
  byteOrder := .little

/-- What an implementer chose before reset (R9): an open value, nothing in Lean can evaluate it
(notes/assumptions/1.md, DESIGN CHOICE). -/
opaque chosen : Params

/-- The configuration the machine runs with: the chosen one. An ill-formed choice has no meaning (R11;
`Machine.boot` refuses it), so the constant then stands for some well-formed configuration; all that can
be proved of it is `Params.WellFormed` and so every theorem about the machine holds for every
well-formed configuration (notes/assumptions/1.md). -/
def params : Params := if chosen.WellFormed then chosen else scenario

end Config
end Sys2Proof
end

