-- ==== Sys2Proof/Syntax.lean ====
section
/-! DEFINITION. The six operations (spec/30_encoding.md R87), one constructor per row of
spec/opcode_table.json, the two ports they arrive on (R80), their names and their operands (R94). -/

namespace Sys2Proof

/-- The two input ports (R80): `CMD` from the application, `NTF` from the hardware layer. -/
inductive Port where
  | cmd
  | ntf
  deriving DecidableEq, Repr

/-- The six operations, operands in the order of the call (R94). `index` and `ledCount` are the unbounded
naturals of the abstract operations (R88); Sys2Proof/WellFormed.lean says which of them the word can carry. -/
inductive Instr where
  /-- `INIT handle, channel, led_count`: `Init(peripheral_handle, channel_id, requested_led_count)`. -/
  | init (handle : Handle) (channel : Chan) (ledCount : Nat)
  /-- `SETLED index, r, g, b, brightness`: `SetLed`. -/
  | setled (index : Nat) (r g b brightness : Byte)
  /-- `FILLALL r, g, b, brightness`: `FillAll`. -/
  | fillall (r g b brightness : Byte)
  /-- `PREP`: `PrepareResetTail()`. -/
  | prep
  /-- `SHOW`: `Show()`. -/
  | showStrip
  /-- `COMPLETE instance_id`: `OnTransferComplete(instance_id)`. -/
  | complete (id : InstanceId)
  deriving DecidableEq, Repr

namespace Instr

/-- The one port the operation is accepted on (R87, R89). -/
def port : Instr → Port
  | init _ _ _ => .cmd
  | setled _ _ _ _ _ => .cmd
  | fillall _ _ _ _ => .cmd
  | prep => .cmd
  | showStrip => .cmd
  | complete _ => .ntf

/-- The mnemonic of R87. -/
def mnemonic : Instr → String
  | init _ _ _ => "INIT"
  | setled _ _ _ _ _ => "SETLED"
  | fillall _ _ _ _ => "FILLALL"
  | prep => "PREP"
  | showStrip => "SHOW"
  | complete _ => "COMPLETE"

/-- The operands in the order of the call (R94). -/
def operands : Instr → List Nat
  | init h ch n => [h.toNat, ch.toNat, n]
  | setled i r g b br => [i, r.toNat, g.toNat, b.toNat, br.toNat]
  | fillall r g b br => [r.toNat, g.toNat, b.toNat, br.toNat]
  | prep => []
  | showStrip => []
  | complete id => [id.toNat]

/-- One line of a program in the spec's notation (R94): the mnemonic, then the operands in decimal,
separated by commas. -/
def text (i : Instr) : String :=
  match i.operands.map Nat.repr with
  | [] => i.mnemonic
  | ops => i.mnemonic ++ " " ++ ", ".intercalate ops

end Instr
end Sys2Proof
end

