-- ==== Sys2Proof/Machine/State.lean ====
section
/-! DEFINITION. The state of the machine (spec/10_state.md), the reasons a step can stop, and the state
after reset (R40, R210). The configuration is a parameter (R27) and stands in Sys2Proof/Config.lean. -/

namespace Sys2Proof
namespace Machine

/-- Register `FSM` (R26): 0 = Idle, 1 = Transmitting. -/
inductive Fsm where
  | idle
  | transmitting
  deriving DecidableEq, Repr

/-- The codes of the status output, in the order of their numbers 0 to 7 (R182). -/
inductive Status where
  | ok
  | ignUninit
  | ignRange
  | ignBusy
  | ignInstance
  | ignIdle
  | okClamped
  | ignBadOp
  deriving DecidableEq, Repr

/-- One slot of the timing buffer that does not hold 0: its slot number and its value. The slot is the
smallest unit of address (R50); notes/assumptions/3.md says why a cell is a slot and not a byte. -/
abbrev Cell := Nat × Slot

/-- The timing buffer (R30): the slots that do not hold 0, by strictly rising slot number; a slot that is
not listed reads as 0, its reset value (R54). `Memory.wf` (Machine/Ops.lean) is this form. -/
abbrev Memory := List Cell

/-- Where the operation in progress stands: the transient counters of R28 (b) and R33
(notes/assumptions/9.md). -/
inductive Progress where
  /-- No operation is in progress. -/
  | none
  /-- SetLed or FillAll: the next slot to write is offset `k` of LED group `i`; the operation goes on up to
  and without LED `stop`; `out` is the 24 values of Encode24. -/
  | led (i k stop : Nat) (out : List Slot)
  /-- PrepareResetTail: the next slot to zero is `a`. -/
  | tail (a : Nat)
  deriving DecidableEq, Repr

/-- A step of an agent other than the application (R7): it may fall between any two atomic steps (R58, R185). -/
inductive AgentStep where
  /-- The hardware layer delivers a word on the notification port (R80 (b)). -/
  | ntfWord (w : Word)
  /-- The engine takes `EngRead` (R161). -/
  | engRead
  /-- The engine takes `EngNotify` (R162). -/
  | engNotify
  deriving DecidableEq, Repr

/-- What the outside world does next: the application delivers a command word (R80 (a)), or another agent
takes a step. -/
inductive Event where
  | cmdWord (w : Word)
  | agent (a : AgentStep)
  deriving DecidableEq, Repr

/-- Why a step stops. The spec has no faults (R180); these two mark states that R34, R37, R38 and R42 rule
out, where an access would leave the domain the spec gives it. -/
inductive Fault where
  /-- A slot outside `[0, BUF_LEN)` would be accessed, which R53 says has no meaning. Raised by SETLED,
  FILLALL and SHOW when `ALC > CAPACITY`, and by SETLED, FILLALL, PREP, SHOW and a scheduled `EngRead` while
  the engine's window is longer than the buffer. Safe. -/
  | slotOutsideBuffer
  /-- The engine is active and `LINE` has no transfer record for it, which R160 rules out. Raised by SETLED,
  FILLALL, PREP, SHOW and a scheduled `EngRead`. Safe. -/
  | noTransferRecord
  deriving DecidableEq, Repr

/-- Why the model gives no meaning. -/
inductive Refusal where
  /-- Raised by an arm of `exec` whose instruction has no meaning yet; no arm raises it now. Safe. -/
  | notModelled (mnemonic : String)
  /-- Raised by `boot` for a configuration that is not well formed (R11, U4, U13). Safe. -/
  | illFormedConfiguration
  deriving DecidableEq, Repr

/-- Everything the spec gives the machine: the five registers of R21, the buffer of R30, the transient
counters of R33, the engine's state and the observation of R32, the status output of R80 (c); and the
schedule of the agents (`agenda`, `gaps`), which is the model's own (notes/assumptions/5.md). -/
structure State where
  /-- `ALC`, the active LED count (R22). -/
  alc : Nat
  /-- `INIT`, set when a handle is bound (R23). -/
  init : Bool
  /-- `HND`, the peripheral handle (R24). -/
  hnd : Handle
  /-- `CHN`, the channel identifier (R25). -/
  chn : Chan
  /-- `FSM`, Idle or Transmitting (R26). -/
  fsm : Fsm
  /-- The timing buffer (R30). -/
  buf : Memory
  /-- The transient counters of the operation in progress (R28, R33). -/
  progress : Progress
  /-- `ENG_ACTIVE` (R32). -/
  engActive : Bool
  /-- `ENG_INST` (R32). -/
  engInst : InstanceId
  /-- `ENG_CHAN` (R32). -/
  engChan : Chan
  /-- `ENG_LEN` (R32). -/
  engLen : Nat
  /-- `ENG_POS` (R32). -/
  engPos : Nat
  /-- `LINE`, one list of slot values per transfer started, oldest first (R32, R165). -/
  line : List (List Slot)
  /-- `STATUS`, the code now on the status output (R80, R182); `none` before the first word
  (notes/assumptions/4.md). -/
  statusOut : Option Status
  /-- What the agents do next between operations, first to come first. -/
  agenda : List Event
  /-- What the other agents do inside operations: one list of steps for each boundary between two atomic
  steps of an operation, first boundary first (R58, R185); no list left means nothing happens there. -/
  gaps : List (List AgentStep)
  deriving DecidableEq, Repr

/-- The state after reset (R40, R210). `HND`, `CHN` and the engine's four fields are unspecified there
(notes/assumptions/2.md); `agenda` and `gaps` are the model's own (notes/assumptions/5.md). -/
def State.reset : State where
  alc := 0
  init := false
  hnd := 0
  chn := 0
  fsm := .idle
  buf := []
  progress := .none
  engActive := false
  engInst := 0
  engChan := 0
  engLen := 0
  engPos := 0
  line := []
  statusOut := none
  agenda := []
  gaps := []

end Machine
end Sys2Proof
end

