-- ==== Sys2Proof/Machine/Operands.lean ====
section
/-! DEFINITION. Slot addresses and operand values: the three address forms of R157 (spec/42_transmission.md),
the layout of R51, R52 and R56 (spec/20_memory.md), and the byte mapping of R60. -/

namespace Sys2Proof
namespace Machine

open Config (Params ByteOrder)

/-- Slot at offset `k` of LED group `i`: address form (a) of R157, R51. -/
def ledSlot (i k : Nat) : Nat := 24 * i + k

/-- The slot of bit `b` (0 to 7) of channel `c` (0 green, 1 red, 2 blue) of LED `i` (R52). -/
def bitSlot (i c b : Nat) : Nat := 24 * i + 8 * c + (7 - b)

/-- The first slot of the reset tail, address form (b) of R157 (R56). -/
def tailStart (alc : Nat) : Nat := alc * 24

/-- The number of slots PrepareResetTail writes (R61, R240). -/
def tailCount (cfg : Params) (alc : Nat) : Nat := cfg.bufLen - tailStart alc

/-- `total_length`, the length of the transfer window (R56, R150). -/
def totalLength (cfg : Params) (alc : Nat) : Nat := alc * 24 + cfg.resetSlotCount

/-- The count Init stores: `min(n, CAPACITY)` (R130). -/
def clampCount (cfg : Params) (n : Nat) : Nat := min n cfg.capacity

/-- The number of bytes of a slot in a byte-addressed mapping (R60). -/
def slotBytes (cfg : Params) : Nat := cfg.slotW / 8

/-- The byte offset of slot `a` from the buffer's base in a byte-addressed mapping (R60). -/
def byteOffset (cfg : Params) (a : Nat) : Nat := a * slotBytes cfg

/-- Byte `j` of a slot value counted from the least significant end. -/
def byteOf (v j : Nat) : BitVec 8 := BitVec.ofNat 8 (v / 256 ^ j)

/-- The bytes of a slot value in the order of their addresses (R60, `BYTE_ORDER`). -/
def bytesOfSlot (cfg : Params) (v : Nat) : List (BitVec 8) :=
  match cfg.byteOrder with
  | .little => (List.range (slotBytes cfg)).map (byteOf v)
  | .big => ((List.range (slotBytes cfg)).map (byteOf v)).reverse

/-- The number whose bytes, least significant first, are these. -/
def littleValue : List (BitVec 8) → Nat
  | [] => 0
  | b :: bs => b.toNat + 256 * littleValue bs

/-- The slot value an engine of the same word width reads from the bytes of a slot (R60). -/
def slotOfBytes (cfg : Params) (bs : List (BitVec 8)) : Nat :=
  match cfg.byteOrder with
  | .little => littleValue bs
  | .big => littleValue bs.reverse

end Machine
end Sys2Proof
end

