-- ==== Sys2Proof/Machine/Encoder.lean ====
section
/-! DEFINITION. The Encoder family (spec/40_encoder.md): Scale, BitToDuty and Encode24, pure functions, and
the reading of slot values back as bits (R121), which no operation performs. -/

namespace Sys2Proof
namespace Machine

open Config (Params)

/-- `Scale(c, br) = ((c * br) div 100) mod 256` (R110, R111 above 100). -/
def scale (c br : Nat) : Nat := c * br / 100 % 256

/-- `BitToDuty(bit)` (R112). -/
def bitToDuty (cfg : Params) (bit : Bool) : Slot :=
  match bit with
  | true => cfg.bitOneDuty
  | false => cfg.bitZeroDuty

/-- The 8 slot values of one scaled channel, most significant bit first (R113). -/
def channelSlots (cfg : Params) (v : Nat) : List Slot :=
  (List.range 8).map fun k => bitToDuty cfg (v.testBit (7 - k))

/-- `Encode24(r, g, b, br)` (R113): green, red, blue. -/
def encode24 (cfg : Params) (r g b br : Byte) : List Slot :=
  channelSlots cfg (scale g.toNat br.toNat) ++
  channelSlots cfg (scale r.toNat br.toNat) ++
  channelSlots cfg (scale b.toNat br.toNat)

/-- What one slot value reads back as (R121): a bit, or low (`none`, as is any value that is no code). -/
def slotBit (cfg : Params) (v : Slot) : Option Bool :=
  if v = cfg.bitOneDuty then some true
  else if v = cfg.bitZeroDuty then some false
  else none

/-- The number of a list of bits, most significant first. -/
def bitsValue (bits : List Bool) : Nat := bits.foldl (fun n bit => 2 * n + bit.toNat) 0

/-- Consecutive slots of one channel read back (R121): `none` if one of them is no bit. -/
def readChannel (cfg : Params) (slots : List Slot) : Option Nat :=
  (slots.mapM (slotBit cfg)).map bitsValue

/-- Twenty-four consecutive slots read back as (green, red, blue) (R121). -/
def readLed (cfg : Params) (slots : List Slot) : Option (Nat × Nat × Nat) :=
  match readChannel cfg (slots.take 8), readChannel cfg ((slots.drop 8).take 8),
      readChannel cfg ((slots.drop 16).take 8) with
  | some g, some r, some b => some (g, r, b)
  | _, _, _ => none

end Machine
end Sys2Proof
end

