-- ==== Sys2Proof/WellFormed.lean ====
section
/-! DEFINITION. Which operations a command word can carry (spec/30_encoding.md R88): `index` and
`led_count` are 16-bit fields; the other operands have their field's width by type. -/

namespace Sys2Proof

/-- R88: the 16-bit limit of the encoding on `index` and `led_count`. -/
def Instr.wellFormed : Instr → Bool
  | .init _ _ n => decide (n < 2 ^ countW)
  | .setled i _ _ _ _ => decide (i < 2 ^ idxW)
  | .fillall _ _ _ _ => true
  | .prep => true
  | .showStrip => true
  | .complete _ => true

end Sys2Proof
end

