-- ==== Sys2Proof/Decode.lean ====
section
/-! DEFINITION. Decoding and encoding of the 64-bit words (spec/30_encoding.md R80 to R90, R93): total on
every word of either port, rejecting by name; the encoder is written from the same format tables. -/

namespace Sys2Proof

/-- Why a word is no operation on its port (R89). -/
inductive Reject where
  /-- Opcode 0x0 or 0x7 to 0xF. -/
  | reservedOpcode
  /-- The opcode is valid on the other port only. -/
  | wrongPort
  deriving DecidableEq, Repr

/-- Bits 63:60 (R81). -/
def opcodeOf (w : Word) : BitVec 4 := w.extractLsb' 60 4

/-- The operation a word's opcode and fields name, whatever the port: formats I (R84), L (R82), F (R83),
N (R86), C (R85). Reserved bits are not looked at (R90). -/
def decodeFields (w : Word) : Option Instr :=
  if opcodeOf w = 0x1#4 then
    some (.init (w.extractLsb' 40 16) (w.extractLsb' 16 8) (w.extractLsb' 24 16).toNat)
  else if opcodeOf w = 0x2#4 then
    some (.setled (w.extractLsb' 40 16).toNat (w.extractLsb' 32 8) (w.extractLsb' 24 8)
      (w.extractLsb' 16 8) (w.extractLsb' 8 8))
  else if opcodeOf w = 0x3#4 then
    some (.fillall (w.extractLsb' 32 8) (w.extractLsb' 24 8) (w.extractLsb' 16 8) (w.extractLsb' 8 8))
  else if opcodeOf w = 0x4#4 then
    some .prep
  else if opcodeOf w = 0x5#4 then
    some .showStrip
  else if opcodeOf w = 0x6#4 then
    some (.complete (w.extractLsb' 40 16))
  else
    none

/-- R93: every word on a port is one operation of that port, or is rejected by name (R89). -/
def decode (p : Port) (w : Word) : Except Reject Instr :=
  match decodeFields w with
  | none => .error .reservedOpcode
  | some i => if i.port = p then .ok i else .error .wrongPort

/-- The five formats of R82 to R86. -/
inductive Format where
  | L
  | F
  | I
  | C
  | N
  deriving DecidableEq, Repr

/-- The format of each operation (R87). -/
def Instr.format : Instr → Format
  | .init _ _ _ => .I
  | .setled _ _ _ _ _ => .L
  | .fillall _ _ _ _ => .F
  | .prep => .N
  | .showStrip => .N
  | .complete _ => .C

/-- The bits of a format that are not reserved: the opcode and the fields (R82 to R86). -/
def Format.used : Format → Word
  | .L => 0xF0FFFFFFFFFFFF00#64
  | .F => 0xF00000FFFFFFFF00#64
  | .I => 0xF0FFFFFFFFFF0000#64
  | .C => 0xF0FFFF0000000000#64
  | .N => 0xF000000000000000#64

/-- The opcode of each operation (R87). -/
def Instr.opcode : Instr → BitVec 4
  | .init _ _ _ => 0x1#4
  | .setled _ _ _ _ _ => 0x2#4
  | .fillall _ _ _ _ => 0x3#4
  | .prep => 0x4#4
  | .showStrip => 0x5#4
  | .complete _ => 0x6#4

/-- A field put into an otherwise zero word with its bit 0 at bit `lo`. -/
def place {n : Nat} (v : BitVec n) (lo : Nat) : Word := v.setWidth 64 <<< lo

/-- The command word of an operation: the opcode in bits 63:60, the fields of its format (R82 to R86), every
reserved bit zero (R90). -/
def encode : Instr → Word
  | .init h ch n => place 0x1#4 60 ||| place h 40 ||| place (BitVec.ofNat 16 n) 24 ||| place ch 16
  | .setled i r g b br =>
    place 0x2#4 60 ||| place (BitVec.ofNat 16 i) 40 ||| place r 32 ||| place g 24 ||| place b 16 |||
      place br 8
  | .fillall r g b br => place 0x3#4 60 ||| place r 32 ||| place g 24 ||| place b 16 ||| place br 8
  | .prep => place 0x4#4 60
  | .showStrip => place 0x5#4 60
  | .complete id => place 0x6#4 60 ||| place id 40

/-- The port on which a word with this opcode is an operation (R87): `NTF` for COMPLETE, else `CMD`. -/
def portOf (w : Word) : Port := if opcodeOf w = 0x6#4 then .ntf else .cmd

/-- A word of the opcode table as a 64-bit word: the bits above `nbits` are 0. -/
def tableWord (nbits w : Nat) : Word := BitVec.ofNat 64 (w % 2 ^ nbits)

/-- What the decoder reads from a word of the opcode table, on the port the table gives its row
(notes/assumptions/7.md). -/
def decodeTableWord (nbits w : Nat) : Option Instr :=
  match decode (portOf (tableWord nbits w)) (tableWord nbits w) with
  | .ok i => some i
  | .error _ => none

end Sys2Proof
end

