-- ==== Sys2Proof/Machine/Flags.lean ====
section
/-! DEFINITION. The two one-bit registers INIT and FSM as the operations test them (spec/10_state.md R29),
and the status code (spec/60_exceptions.md R181, R182, R184): a pure function of the operation, its
operands and the state before it. -/

namespace Sys2Proof
namespace Machine

open Config (Params)

/-- The 3-bit number of a status code (R182). -/
def statusCode : Status → BitVec 3
  | .ok => 0#3
  | .ignUninit => 1#3
  | .ignRange => 2#3
  | .ignBusy => 3#3
  | .ignInstance => 4#3
  | .ignIdle => 5#3
  | .okClamped => 6#3
  | .ignBadOp => 7#3

/-- The operation was ignored (R182); the two other codes say that it took effect. -/
def statusIgnored : Status → Bool
  | .ok => false
  | .ignUninit => true
  | .ignRange => true
  | .ignBusy => true
  | .ignInstance => true
  | .ignIdle => true
  | .okClamped => false
  | .ignBadOp => true

/-- Init: clamped or not, never ignored (R130, R181 row 4). -/
def initStatus (cfg : Params) (n : Nat) : Status := if cfg.capacity < n then .okClamped else .ok

/-- SetLed: `IGN_UNINIT` before `IGN_RANGE` (R181 rows 1 and 2, R184). -/
def setLedStatus (index : Nat) (s : State) : Status :=
  if s.init = false then .ignUninit else if s.alc ≤ index then .ignRange else .ok

/-- FillAll (R181 row 1). -/
def fillAllStatus (s : State) : Status := if s.init = false then .ignUninit else .ok

/-- Show: `IGN_UNINIT` before `IGN_BUSY` (R181 rows 1 and 5, R184). -/
def showStatus (s : State) : Status :=
  if s.init = false then .ignUninit else if s.fsm = .transmitting then .ignBusy else .ok

/-- OnTransferComplete: `IGN_UNINIT`, then `IGN_INSTANCE`, then `IGN_IDLE` (R181 rows 3, 6 and 7, R184). -/
def completeStatus (cfg : Params) (id : InstanceId) (s : State) : Status :=
  if s.init = false then .ignUninit
  else if id ≠ cfg.instanceOf s.hnd then .ignInstance
  else if s.fsm = .idle then .ignIdle else .ok

/-- The status code of each operation (R182). -/
def statusOf (cfg : Params) (i : Instr) (s : State) : Status :=
  match i with
  | .init _ _ n => initStatus cfg n
  | .setled index _ _ _ _ => setLedStatus index s
  | .fillall _ _ _ _ => fillAllStatus s
  | .prep => .ok
  | .showStrip => showStatus s
  | .complete id => completeStatus cfg id s

end Machine
end Sys2Proof
end

