-- ==== Sys2Proof/Machine/Ops.lean ====
section
/-! DEFINITION. The named operations: the two slot primitives (spec/20_memory.md R54, R55), the register
writes, the engine's requests and steps and the completion handler (spec/42_transmission.md R153, R160 to
R163), and the atomic slot writes of an operation with the other agents' steps between them (R57, R58,
R185). Each takes the configuration as an argument (R27). -/

namespace Sys2Proof
namespace Machine

open Config (Params)

/-! ### The timing buffer -/

/-- `MemRead(a, 1)` (R54): the listed value, or 0. -/
def Memory.read : Memory → Nat → Slot
  | [], _ => 0
  | (b, v) :: m, a => if a = b then v else Memory.read m a

/-- `MemWrite(a, 1, v)` (R55); a slot that becomes 0 leaves the list, so the form of `Memory.wf` is kept. -/
def Memory.write : Memory → Nat → Slot → Memory
  | [], a, v => if v = 0 then [] else [(a, v)]
  | (b, u) :: m, a, v =>
    if a < b then (if v = 0 then (b, u) :: m else (a, v) :: (b, u) :: m)
    else if a = b then (if v = 0 then m else (a, v) :: m)
    else (b, u) :: Memory.write m a v

/-- The one form of a buffer: slot numbers strictly rising, no slot listed that holds 0. -/
def Memory.wf : Memory → Bool
  | [] => true
  | (a, v) :: m => decide (v ≠ 0) && m.all (fun c => decide (a < c.1)) && Memory.wf m

/-! ### Registers and the status output -/

/-- `status <- c` (R182): the code on the status output. -/
def State.drive (s : State) (c : Status) : State := { s with statusOut := some c }

/-- The four writes of Init, one atomic step (R130). -/
def State.bindOutput (s : State) (h : Handle) (ch : Chan) (alc : Nat) : State :=
  { s with hnd := h, chn := ch, init := true, alc := alc }

/-- `FSM <- f` (R26). -/
def State.setFsm (s : State) (f : Fsm) : State := { s with fsm := f }

/-- One slot of the buffer is written (R55). -/
def State.memWrite (s : State) (a : Nat) (v : Slot) : State := { s with buf := s.buf.write a v }

/-- The transient counters of the operation in progress (R33). -/
def State.setProgress (s : State) (p : Progress) : State := { s with progress := p }

/-- What is left of the agenda. -/
def State.setAgenda (s : State) (es : List Event) : State := { s with agenda := es }

/-- What is left of the steps of the other agents inside operations. -/
def State.setGaps (s : State) (gs : List (List AgentStep)) : State := { s with gaps := gs }

/-! ### The transfer engine -/

/-- Appends a slot value to the last transfer record: `last(LINE) <- last(LINE) ++ [v]` (R161). -/
def appendToLast : List (List Slot) → Slot → List (List Slot)
  | [], _ => []
  | [r], v => [r ++ [v]]
  | r :: q :: rs, v => r :: appendToLast (q :: rs) v

/-- `EngStart(inst, chan, len)` (R160); the engine accepts it always. -/
def State.engStart (s : State) (inst : InstanceId) (chan : Chan) (len : Nat) : State :=
  { s with
    engActive := true
    engInst := inst
    engChan := chan
    engLen := len
    engPos := 0
    line := s.line ++ [[]] }

/-- `EngStop(inst, chan)` (R163): stops the one active transfer, whatever `inst` and `chan` say; the fields
that are dead from then on stay as they are (notes/assumptions/11.md). -/
def State.engStop (s : State) (_inst : InstanceId) (_chan : Chan) : State := { s with engActive := false }

/-- `EngRead` is enabled (R161). -/
def State.engReadEnabled (s : State) : Bool := s.engActive && decide (s.engPos < s.engLen)

/-- `EngNotify` is enabled (R162). -/
def State.engNotifyEnabled (s : State) : Bool := s.engActive && decide (s.engPos = s.engLen)

/-- The effect of `EngRead` (R161): the slot's value at this moment is clocked out. -/
def State.engRead (s : State) : State :=
  { s with line := appendToLast s.line (s.buf.read s.engPos), engPos := s.engPos + 1 }

/-- What would make a read of the engine fall outside the domain the spec gives it: a window longer than the
buffer (R42, R53), or no transfer record (R160). No reachable state has either (notes/assumptions/6.md). -/
def State.engineFault (cfg : Params) (s : State) : Option Fault :=
  if s.engActive = true then
    if s.engLen ≤ cfg.bufLen then
      if s.line = [] then some .noTransferRecord else none
    else some .slotOutsideBuffer
  else none

/-- What would make a colour write or a transfer window fall outside the buffer: `ALC > CAPACITY` (R34, R53);
and the engine's own. -/
def State.activeFault (cfg : Params) (s : State) : Option Fault :=
  if s.alc ≤ cfg.capacity then s.engineFault cfg else some .slotOutsideBuffer

/-! ### The completion notification: the block's one interrupt-like input (R186, R187, R191) -/

/-- `OnTransferComplete(id)` (R153): the handler, atomic; it saves nothing and returns nowhere (R187, R188).
It is the meaning of COMPLETE, of `EngNotify`, and of a notification that falls inside an operation. -/
def State.onTransferComplete (cfg : Params) (id : InstanceId) (s : State) : State :=
  if s.init = false then s.drive .ignUninit
  else if id ≠ cfg.instanceOf s.hnd then s.drive .ignInstance
  else if s.fsm = .idle then s.drive .ignIdle
  else ((s.engStop (cfg.instanceOf s.hnd) s.chn).setFsm .idle).drive .ok

/-- A word arrives on the notification port: COMPLETE is handled, any other word is ignored (R89). -/
def State.takeNotification (cfg : Params) (w : Word) (s : State) : State :=
  match decode .ntf w with
  | .ok (.complete id) => s.onTransferComplete cfg id
  | .ok _ => s.drive .ignBadOp
  | .error _ => s.drive .ignBadOp

/-- One step of another agent (R7, R185); an engine step that is not enabled is not taken
(notes/assumptions/5.md). -/
def State.agentStep (cfg : Params) (s : State) : AgentStep → State
  | .ntfWord w => s.takeNotification cfg w
  | .engRead => if s.engReadEnabled = true then s.engRead else s
  | .engNotify => if s.engNotifyEnabled = true then s.onTransferComplete cfg s.engInst else s

/-! ### The atomic slot writes of an operation, and what falls between them -/

/-- A boundary between two atomic steps of an operation (R58, R185): the other agents take the steps the
schedule gives for it (notes/assumptions/10.md). -/
def State.takeGap (cfg : Params) (s : State) : State :=
  match s.gaps with
  | [] => s
  | g :: gs => g.foldl (State.agentStep cfg) (s.setGaps gs)

/-- The counters after the slot write they stand at (R33, R57): ascending slots, ascending LEDs. -/
def Progress.next (cfg : Params) : Progress → Progress
  | .none => .none
  | .led i k stop out =>
    if k + 1 < 24 then .led i (k + 1) stop out
    else if i + 1 < stop then .led (i + 1) 0 stop out
    else .none
  | .tail a => if a + 1 < cfg.bufLen then .tail (a + 1) else .none

/-- One atomic slot write of the operation in progress (R57, R61), its counters moved on. -/
def State.advance (cfg : Params) (s : State) : State :=
  match s.progress with
  | .none => s
  | .led i k stop out =>
    (s.memWrite (ledSlot i k) (out.getD k 0)).setProgress ((Progress.led i k stop out).next cfg)
  | .tail a => (s.memWrite a 0).setProgress ((Progress.tail a).next cfg)

/-- `n` slot writes, each after a boundary at which the other agents may take steps (R58). -/
def State.runWrites (cfg : Params) : Nat → State → State
  | 0, s => s
  | n + 1, s => State.runWrites cfg n ((s.takeGap cfg).advance cfg)

/-- The slot writes of one operation: `n` of them, from the counters `p` on; the counters exist only within
it (R33). -/
def State.perform (cfg : Params) (p : Progress) (n : Nat) (s : State) : State :=
  ((s.setProgress p).runWrites cfg n).setProgress .none

/-- The slot writes of PrepareResetTail (R138), alone or inside Show. -/
def State.zeroTail (cfg : Params) (s : State) : State :=
  s.perform cfg (.tail (tailStart s.alc)) (tailCount cfg s.alc)

end Machine
end Sys2Proof
end

