-- ==== Sys2Proof/Machine/StripBuffer.lean ====
section
/-! DEFINITION. The StripBuffer family (spec/41_stripbuffer.md): Init, SetLed, FillAll, PrepareResetTail.
Each operation is written once over the configuration; the meaning of its constructor applies it to the
machine's own. -/

namespace Sys2Proof
namespace Machine

open Config (Params)

/-- What an operation answers: one step of the host's interface. -/
abbrev Answer := Host.Outcome State Fault Refusal

/-- `Init(h, ch, n)` (R130): never ignored, whatever `FSM` is (R131). -/
def initOp (cfg : Params) (h : Handle) (ch : Chan) (n : Nat) (s : State) : Answer :=
  .next ((s.bindOutput h ch (clampCount cfg n)).drive (initStatus cfg n))

/-- `SetLed(index, r, g, b, br)` (R132): the two tests, then the 24 slot writes in ascending order (R57). -/
def setLedOp (cfg : Params) (index : Nat) (r g b br : Byte) (s : State) : Answer :=
  if s.init = false then .next (s.drive .ignUninit)
  else if s.alc ≤ index then .next (s.drive .ignRange)
  else match s.activeFault cfg with
    | some f => .fault f
    | none =>
      .next ((s.perform cfg (.led index 0 (index + 1) (encode24 cfg r g b br)) 24).drive .ok)

/-- `FillAll(r, g, b, br)` (R135, R95): SetLed for every LED below `ALC`, read once, in ascending order. -/
def fillAllOp (cfg : Params) (r g b br : Byte) (s : State) : Answer :=
  if s.init = false then .next (s.drive .ignUninit)
  else match s.activeFault cfg with
    | some f => .fault f
    | none =>
      .next ((s.perform cfg (.led 0 0 s.alc (encode24 cfg r g b br)) (24 * s.alc)).drive .ok)

/-- `PrepareResetTail()` (R138): never ignored, tests neither INIT nor FSM. -/
def prepOp (cfg : Params) (s : State) : Answer :=
  match s.engineFault cfg with
  | some f => .fault f
  | none => .next ((s.zeroTail cfg).drive .ok)

/-- The meaning of INIT (R130). -/
def execInit (h : Handle) (ch : Chan) (n : Nat) (s : State) : Answer := initOp Config.params h ch n s

/-- The meaning of SETLED (R132). -/
def execSetLed (index : Nat) (r g b br : Byte) (s : State) : Answer :=
  setLedOp Config.params index r g b br s

/-- The meaning of FILLALL (R135). -/
def execFillAll (r g b br : Byte) (s : State) : Answer := fillAllOp Config.params r g b br s

/-- The meaning of PREP (R138). -/
def execPrep (s : State) : Answer := prepOp Config.params s

end Machine
end Sys2Proof
end

