-- ==== Sys2Proof/Machine/Transmission.lean ====
section
/-! DEFINITION. The TransmissionController family (spec/42_transmission.md): Show, OnTransferComplete, and
the engine's two steps where they fall between operations. -/

namespace Sys2Proof
namespace Machine

open Config (Params)

/-- `Show()` (R150, R151): the two tests, `total_length`, the slot writes of PrepareResetTail, then `EngStart`
and `FSM <- Transmitting` as one atomic step after a last boundary (R63, R185). -/
def showOp (cfg : Params) (s : State) : Answer :=
  if s.init = false then .next (s.drive .ignUninit)
  else if s.fsm = .transmitting then .next (s.drive .ignBusy)
  else match s.activeFault cfg with
    | some f => .fault f
    | none =>
      let t := (s.zeroTail cfg).takeGap cfg
      .next (((t.engStart (cfg.instanceOf t.hnd) t.chn (totalLength cfg s.alc)).setFsm
        .transmitting).drive .ok)

/-- `OnTransferComplete(id)` (R153), the handler of Machine/Ops.lean. -/
def completeOp (cfg : Params) (id : InstanceId) (s : State) : Answer :=
  .next (s.onTransferComplete cfg id)

/-- The meaning of SHOW (R150). -/
def execShow (s : State) : Answer := showOp Config.params s

/-- The meaning of COMPLETE (R153). -/
def execComplete (id : InstanceId) (s : State) : Answer := completeOp Config.params id s

/-- `EngRead` between operations (R161). -/
def engReadOp (cfg : Params) (s : State) : Answer :=
  if s.engReadEnabled = true then
    match s.engineFault cfg with
    | some f => .fault f
    | none => .next s.engRead
  else .next s

end Machine
end Sys2Proof
end

