-- ==== Sys2Proof/Machine/Dispatch.lean ====
section
/-! DEFINITION. One arm per operation (spec/30_encoding.md R87). -/

namespace Sys2Proof
namespace Machine

-- The meaning of each operation.
def exec (i : Instr) (s : State) : Host.Outcome State Fault Refusal :=
  match i with
  | .init h ch n => Sys2Proof.Machine.execInit h ch n s
  | .setled index r g b br => Sys2Proof.Machine.execSetLed index r g b br s
  | .fillall r g b br => Sys2Proof.Machine.execFillAll r g b br s
  | .prep => Sys2Proof.Machine.execPrep s
  | .showStrip => Sys2Proof.Machine.execShow s
  | .complete id => Sys2Proof.Machine.execComplete id s

end Machine
end Sys2Proof
end

