-- ==== Sys2Proof/Machine/Step.lean ====
section
/-! DEFINITION. One step of the machine: the first event of the agenda happens (spec/00_scope.md R6, R7;
spec/30_encoding.md R80, R89); and power-on with a configuration (R11, R210, R212). -/

namespace Sys2Proof
namespace Machine

/-- A word arrives on a port (R80): the operation it decodes to is performed, or the word is ignored with
`IGN_BADOP` (R89). -/
def deliver (p : Port) (w : Word) (s : State) : Host.Outcome State Fault Refusal :=
  match decode p w with
  | .ok i => exec i s
  | .error _ => .next (s.drive .ignBadOp)

/-- A step of another agent between two operations (R7). `EngNotify` delivers `COMPLETE ENG_INST` on the
notification port (R162). -/
def agentEvent (a : AgentStep) (s : State) : Host.Outcome State Fault Refusal :=
  match a with
  | .ntfWord w => deliver .ntf w s
  | .engRead => engReadOp Config.params s
  | .engNotify => if s.engNotifyEnabled = true then exec (.complete s.engInst) s else .next s

/-- One step: the first event of the agenda. With no event nothing happens: the block waits (R210). -/
def step (s : State) : Host.Outcome State Fault Refusal :=
  match s.agenda with
  | [] => .next s
  | .cmdWord w :: es => deliver .cmd w (s.setAgenda es)
  | .agent a :: es => agentEvent a (s.setAgenda es)

/-- The event by which a word arrives on a port. -/
def arrival (p : Port) (w : Word) : Event :=
  match p with
  | .cmd => .cmdWord w
  | .ntf => .agent (.ntfWord w)

/-- A word of the opcode table made the next to arrive, on the port of its row (R87; notes/assumptions/7.md). -/
def State.withFetchWord (s : State) (nbits w : Nat) : State :=
  s.setAgenda (arrival (portOf (tableWord nbits w)) (tableWord nbits w) :: s.agenda)

/-- Power-on with a configuration (R210, R212): the state after reset if it is well formed; an ill-formed
configuration is given no meaning and refused (R11, R233, U4, U13). -/
def boot (cfg : Config.Params) : Host.Outcome State Fault Refusal :=
  if cfg.WellFormed then .next State.reset else .refused .illFormedConfiguration

end Machine
end Sys2Proof
end

