-- ==== Sys2Proof/Machine/Agents.lean ====
section
/-! DEFINITION. The steps of the other agents that one step of the machine takes, in their order, each with the
state it is taken in (spec/00_scope.md R7, spec/20_memory.md R58, spec/60_exceptions.md R185). The premises on
the environment (spec/42_transmission.md R166) are said of these. -/

namespace Sys2Proof
namespace Machine

open Config (Params)

/-- A step of another agent and the state just before it. -/
abbrev Taken := State × AgentStep

/-- A run of agent steps, each with the state it is taken in. -/
def agentsTaken (cfg : Params) : List AgentStep → State → List Taken
  | [], _ => []
  | a :: as, s => (s, a) :: agentsTaken cfg as (s.agentStep cfg a)

/-- What is taken at one boundary inside an operation (`State.takeGap`). -/
def boundaryTaken (cfg : Params) (s : State) : List Taken :=
  match s.gaps with
  | [] => []
  | g :: gs => agentsTaken cfg g (s.setGaps gs)

/-- What is taken during `n` slot writes (`State.runWrites`). -/
def writesTaken (cfg : Params) : Nat → State → List Taken
  | 0, _ => []
  | n + 1, s => boundaryTaken cfg s ++ writesTaken cfg n ((s.takeGap cfg).advance cfg)

/-- What is taken during PrepareResetTail, alone or inside Show (`State.zeroTail`). -/
def tailTaken (cfg : Params) (s : State) : List Taken :=
  writesTaken cfg (tailCount cfg s.alc) (s.setProgress (.tail (tailStart s.alc)))

/-- What is taken inside an operation: nothing if it is ignored or is one atomic step (R185). -/
def execTaken (cfg : Params) (i : Instr) (s : State) : List Taken :=
  if statusIgnored (statusOf cfg i s) = true then []
  else match i with
    | .init _ _ _ => []
    | .setled index r g b br =>
      writesTaken cfg 24 (s.setProgress (.led index 0 (index + 1) (encode24 cfg r g b br)))
    | .fillall r g b br =>
      writesTaken cfg (24 * s.alc) (s.setProgress (.led 0 0 s.alc (encode24 cfg r g b br)))
    | .prep => tailTaken cfg s
    | .showStrip => tailTaken cfg s ++ boundaryTaken cfg (s.zeroTail cfg)
    | .complete _ => []

/-- What is taken in one step of the machine: the event itself if it is another agent's, else what falls inside
the operation the word decodes to. -/
def stepTaken (cfg : Params) (s : State) : List Taken :=
  match s.agenda with
  | [] => []
  | .cmdWord w :: es =>
    match decode .cmd w with
    | .ok i => execTaken cfg i (s.setAgenda es)
    | .error _ => []
  | .agent a :: es => [(s.setAgenda es, a)]

end Machine
end Sys2Proof
end

