-- ==== Sys2Proof/Safety.lean ====
section
/-! DEFINITION. The terms in which claims are made: the invariants of spec/10_state.md (R34 to R39, R42),
the states the block can reach, the premises on the environment (R166), a quiescent state (R167), the frame
of a disciplined run (R168), and the buffer as a function of the application's history (R140). -/

namespace Sys2Proof
namespace Machine

open Config (Params)

/-- The invariants of spec/10_state.md, with the canonical form of the buffer and the length of the open
transfer record, which make them inductive. -/
structure Inv (cfg : Params) (s : State) : Prop where
  /-- The buffer is in its one form. -/
  bufForm : s.buf.wf = true
  /-- R35, R53, R140: no slot at or above `CAPACITY * 24` holds anything but 0. -/
  bufInside : ∀ c ∈ s.buf, c.1 < cfg.capacity * 24
  /-- R36: a slot that does not hold 0 holds one of the two duty values. -/
  bufValues : ∀ c ∈ s.buf, c.2 = cfg.bitZeroDuty ∨ c.2 = cfg.bitOneDuty
  /-- R34. -/
  alcBound : s.alc ≤ cfg.capacity
  /-- R37, and `ALC = 0` (R40, R138) before the first Init. -/
  uninit : s.init = false →
    s.alc = 0 ∧ s.buf = [] ∧ s.fsm = .idle ∧ s.engActive = false ∧ s.line = []
  /-- R38. -/
  fsmEngine : s.fsm = .transmitting ↔ s.engActive = true
  /-- R39. -/
  fsmInit : s.fsm = .transmitting → s.init = true
  /-- R42. -/
  window : s.engActive = true →
    ∃ n, n ≤ cfg.capacity ∧ s.engLen = n * 24 + cfg.resetSlotCount ∧ s.engPos ≤ s.engLen
  /-- R160, R161: the open transfer record holds one value for each slot read. -/
  record : s.engActive = true → ∃ r, s.line.getLast? = some r ∧ r.length = s.engPos
  /-- R33: the transient counters exist only within one operation. -/
  noProgress : s.progress = .none

/-- The states the block can be in: after reset, after a step, and after the outside world has made up its
mind what comes next (R6, R7). -/
inductive Reachable : State → Prop where
  | reset : Reachable State.reset
  | schedule (s : State) (es : List Event) (gs : List (List AgentStep)) (h : Reachable s) :
      Reachable ((s.setAgenda es).setGaps gs)
  | step (s t : State) (h : Reachable s) (hs : Machine.step s = .next t) : Reachable t

/-- `k` steps, stopping at the first fault or refusal. -/
def runSteps : Nat → State → Host.Outcome State Fault Refusal
  | 0, s => .next s
  | k + 1, s =>
    match step s with
    | .next t => runSteps k t
    | .fault f => .fault f
    | .refused r => .refused r

/-- The agent step delivers a notification that matches the bound instance (R153). -/
def AgentStep.isMatch (cfg : Params) (s : State) : AgentStep → Prop
  | .ntfWord w => decode .ntf w = .ok (.complete (cfg.instanceOf s.hnd))
  | .engRead => False
  | .engNotify => s.engInst = cfg.instanceOf s.hnd

/-- The event delivers a notification that matches the bound instance. -/
def Event.isMatch (cfg : Params) (s : State) : Event → Prop
  | .cmdWord _ => False
  | .agent a => a.isMatch cfg s

/-- Premise `ENV_NOTIFY_AT_END` (R166 (c)), of the step the machine takes next: every matching notification
delivered while `ENG_ACTIVE` is the engine's own `EngNotify`. A word may match while the engine is inactive
(notes/assumptions/15.md). -/
def NotifyAtEnd (cfg : Params) (s : State) : Prop :=
  ∀ x a, (x, a) ∈ stepTaken cfg s → x.engActive = true → a.isMatch cfg x → a = .engNotify

/-- Premise `APP_DISCIPLINE` (R166 (e)), of the step the machine takes next: of the five application operations
only Show is issued while `FSM = Transmitting`. That colour-setting is finished before Show holds of itself, one
operation being one step (R225; notes/assumptions/15.md). -/
def AppDiscipline (s : State) : Prop :=
  s.fsm = .transmitting → ∀ w i, s.agenda.head? = some (.cmdWord w) → decode .cmd w = .ok i → i = .showStrip

/-- From one state to the next of a run: the machine takes a step and goes on, and the outside world makes up its
mind what comes next (R6, R7; notes/assumptions/5.md). -/
def Follows (s t : State) : Prop :=
  ∃ u es gs, step s = .next u ∧ t = (u.setAgenda es).setGaps gs

/-- The first `n` steps of a run. -/
def RunTo (n : Nat) (run : Nat → State) : Prop := ∀ k, k < n → Follows (run k) (run (k + 1))

/-- A run without end (R167: the block never halts). -/
def Run (run : Nat → State) : Prop := ∀ k, Follows (run k) (run (k + 1))

/-- Premise `ENV_EVENTUALLY_NOTIFIES` (R166 (d)), fairness: whenever `EngRead` or `EngNotify` is enabled, it is
taken in that step of the run or a later one, unless the run comes to a state in which it is enabled no more
(notes/assumptions/15.md). -/
def EventuallyNotifies (cfg : Params) (run : Nat → State) : Prop :=
  (∀ k, (run k).engReadEnabled = true → ∃ j, k ≤ j ∧ ((run j).engReadEnabled = false ∨
    ∃ x, (x, AgentStep.engRead) ∈ stepTaken cfg (run j) ∧ x.engReadEnabled = true)) ∧
  ∀ k, (run k).engNotifyEnabled = true → ∃ j, k ≤ j ∧ ((run j).engNotifyEnabled = false ∨
    ∃ x, (x, AgentStep.engNotify) ∈ stepTaken cfg (run j) ∧ x.engNotifyEnabled = true)

/-- An agenda of other agents' steps only: the application issues nothing, which is more than `AppDiscipline`
asks. -/
def agentsOnly (steps : List AgentStep) : List Event := steps.map Event.agent

/-- Quiescent (R167): no command is pending, `FSM` is Idle, the engine is inactive. -/
def Quiescent (s : State) : Prop :=
  (∀ w, Event.cmdWord w ∉ s.agenda) ∧ s.fsm = .idle ∧ s.engActive = false

/-- The first `n` slots of a buffer, in order. -/
def slotsOf (m : Memory) (n : Nat) : List Slot := (List.range n).map m.read

/-- The record of R168: the active LED groups as the buffer holds them, then the reset slots. -/
def frameOf (cfg : Params) (s : State) : List Slot :=
  slotsOf s.buf (24 * s.alc) ++ List.replicate cfg.resetSlotCount 0

/-- Operations one after another, with no engine activity between them. -/
def execAll : List Instr → State → Host.Outcome State Fault Refusal
  | [], s => .next s
  | i :: is, s =>
    match exec i s with
    | .next t => execAll is t
    | .fault f => .fault f
    | .refused r => .refused r

/-! ### The buffer as a function of the history since reset (R140), the latest operation first -/

/-- The handle the latest Init bound, if there was one. -/
def histHandle : List Instr → Option Handle
  | [] => none
  | .init h _ _ :: _ => some h
  | .setled _ _ _ _ _ :: is => histHandle is
  | .fillall _ _ _ _ :: is => histHandle is
  | .prep :: is => histHandle is
  | .showStrip :: is => histHandle is
  | .complete _ :: is => histHandle is

/-- The active count the latest Init set, 0 if there was none. -/
def histCount (cfg : Params) : List Instr → Nat
  | [] => 0
  | .init _ _ n :: _ => clampCount cfg n
  | .setled _ _ _ _ _ :: is => histCount cfg is
  | .fillall _ _ _ _ :: is => histCount cfg is
  | .prep :: is => histCount cfg is
  | .showStrip :: is => histCount cfg is
  | .complete _ :: is => histCount cfg is

/-- A Show has taken effect and no matching notification has come since. -/
def histBusy (cfg : Params) : List Instr → Bool
  | [] => false
  | .init _ _ _ :: is => histBusy cfg is
  | .setled _ _ _ _ _ :: is => histBusy cfg is
  | .fillall _ _ _ _ :: is => histBusy cfg is
  | .prep :: is => histBusy cfg is
  | .showStrip :: is => (histHandle is).isSome
  | .complete id :: is => histBusy cfg is && decide ((histHandle is).map cfg.instanceOf ≠ some id)

/-- What slot `a` holds after a history (R140): the latest of a SetLed or FillAll that took effect on its LED
and a PrepareResetTail performed while the LED was not active decides; 0 if there was neither. -/
def histSlot (cfg : Params) : List Instr → Nat → Slot
  | [], _ => 0
  | .init _ _ _ :: is, a => histSlot cfg is a
  | .setled i r g b br :: is, a =>
    if (histHandle is).isSome = true ∧ i < histCount cfg is ∧ a / 24 = i then
      (encode24 cfg r g b br).getD (a % 24) 0
    else histSlot cfg is a
  | .fillall r g b br :: is, a =>
    if (histHandle is).isSome = true ∧ a / 24 < histCount cfg is then
      (encode24 cfg r g b br).getD (a % 24) 0
    else histSlot cfg is a
  | .prep :: is, a => if histCount cfg is ≤ a / 24 then 0 else histSlot cfg is a
  | .showStrip :: is, a =>
    if (histHandle is).isSome = true ∧ histBusy cfg is = false ∧ histCount cfg is ≤ a / 24 then 0
    else histSlot cfg is a
  | .complete _ :: is, a => histSlot cfg is a

/-- A state is what a history since reset makes of it, as far as R140 and its rules go: the binding, the active
count, `FSM`, and every slot. -/
structure Agrees (cfg : Params) (is : List Instr) (s : State) : Prop where
  init : s.init = (histHandle is).isSome
  hnd : ∀ h, histHandle is = some h → s.hnd = h
  alc : s.alc = histCount cfg is
  fsm : s.fsm = .transmitting ↔ histBusy cfg is = true
  buf : ∀ a, s.buf.read a = histSlot cfg is a

/-- The value an operation that takes effect writes to slot `a`; `none` where it writes nothing (R132, R135,
R138, R150). -/
def writtenValue (cfg : Params) (i : Instr) (s : State) (a : Nat) : Option Slot :=
  if statusIgnored (statusOf cfg i s) = true then none
  else match i with
    | .init _ _ _ => none
    | .setled index r g b br => if a / 24 = index then (encode24 cfg r g b br)[a % 24]? else none
    | .fillall r g b br => if a / 24 < s.alc then (encode24 cfg r g b br)[a % 24]? else none
    | .prep => if tailStart s.alc ≤ a ∧ a < cfg.bufLen then some 0 else none
    | .showStrip => if tailStart s.alc ≤ a ∧ a < cfg.bufLen then some 0 else none
    | .complete _ => none

end Machine
end Sys2Proof
end

