-- ==== Sys2Proof/Certificates/Slice0/Obligations.lean ====
section
/-! DEFINITION. The statements about the machine. `Config.params` is any well-formed configuration
(notes/assumptions/1.md), so each statement about `exec` or `step` holds for every one of them. A statement
about an operation holds for every schedule of the other agents' steps inside it (`gaps`), and says apart
what holds when there is none. -/

open Sys2Proof Sys2Proof.Machine

/-! ### Words -/

/-- The worked encodings of spec/30_encoding.md section 7 and three corner cases of
spec/95_test_vectors.md section 2.1, as the decoder reads them. -/
def Obligations.SpecWordsDecode : Prop :=
  decode .cmd 0x1000010002010000#64 = .ok (.init 1#16 1#8 2) ∧
  decode .cmd 0x2000011234566400#64 = .ok (.setled 1 0x12#8 0x34#8 0x56#8 100#8) ∧
  decode .cmd 0x300000FF80013200#64 = .ok (.fillall 255#8 128#8 1#8 50#8) ∧
  decode .cmd 0x4000000000000000#64 = .ok .prep ∧
  decode .cmd 0x5ABCDEF012345678#64 = .ok .showStrip ∧
  decode .ntf 0x6000010000000000#64 = .ok (.complete 1#16) ∧
  decode .cmd 0x6000010000000000#64 = .error .wrongPort ∧
  decode .cmd 0#64 = .error .reservedOpcode

/-- Every operation the word can carry comes back from its word on its port, with every operand. -/
def Obligations.DecodeOfEncode : Prop :=
  ∀ i : Instr, i.wellFormed = true → decode i.port (encode i) = .ok i

/-- A word that decodes is the operation's own word but for the bits its format reserves. -/
def Obligations.EncodeOfDecode : Prop :=
  ∀ (p : Port) (w : Word) (i : Instr), decode p w = .ok i →
    i.wellFormed = true ∧ i.port = p ∧ encode i = w &&& i.format.used

/-- R90: reserved bits do not change what a word decodes to, and the encoder writes them as zero. -/
def Obligations.ReservedBitsIgnored : Prop :=
  (∀ (p : Port) (w v : Word) (i : Instr), decode p w = .ok i →
    v &&& i.format.used = w &&& i.format.used → decode p v = .ok i) ∧
  ∀ i : Instr, encode i &&& ~~~ i.format.used = 0#64

/-- R93: every word on the command port is one of the five application operations or is rejected; every word
on the notification port is COMPLETE or is rejected. -/
def Obligations.DecodingIsTotalPerPort : Prop :=
  (∀ w : Word, (∃ r, decode .cmd w = .error r) ∨
    (∃ h ch n, decode .cmd w = .ok (.init h ch n)) ∨
    (∃ index r g b br, decode .cmd w = .ok (.setled index r g b br)) ∨
    (∃ r g b br, decode .cmd w = .ok (.fillall r g b br)) ∨
    decode .cmd w = .ok .prep ∨ decode .cmd w = .ok .showStrip) ∧
  ∀ w : Word, (∃ r, decode .ntf w = .error r) ∨ ∃ id, decode .ntf w = .ok (.complete id)

/-- R89: a word with a reserved opcode on either port, COMPLETE on the command port, and any other operation
on the notification port are ignored: no state changes, the status output shows `IGN_BADOP`. -/
def Obligations.ReservedAndWrongPortIgnored : Prop :=
  ∀ (p : Port) (w : Word) (s : State),
    (opcodeOf w = 0x0#4 ∨ 0x7#4 ≤ opcodeOf w ∨ (p = .cmd ∧ opcodeOf w = 0x6#4) ∨
      (p = .ntf ∧ opcodeOf w ≠ 0x6#4)) →
    deliver p w s = .next { s with statusOut := some .ignBadOp }

/-! ### One step -/

/-- A step delivers the word at the head of the agenda and runs the operation it decodes to, or ignores it. -/
def Obligations.StepRunsDecodedWord : Prop :=
  (∀ (s : State) (w : Word) (es : List Event) (i : Instr),
    s.agenda = .cmdWord w :: es → decode .cmd w = .ok i → step s = exec i { s with agenda := es }) ∧
  (∀ (s : State) (w : Word) (es : List Event) (i : Instr),
    s.agenda = .agent (.ntfWord w) :: es → decode .ntf w = .ok i →
      step s = exec i { s with agenda := es }) ∧
  ∀ (s : State) (w : Word) (es : List Event) (r : Reject),
    (s.agenda = .cmdWord w :: es ∧ decode .cmd w = .error r) ∨
      (s.agenda = .agent (.ntfWord w) :: es ∧ decode .ntf w = .error r) →
    step s = .next { s with agenda := es, statusOut := some .ignBadOp }

/-- The engine's two steps between operations (R161, R162): what each does when it is enabled, and that it
does nothing when it is not. -/
def Obligations.StepRunsEngine : Prop :=
  (∀ (s : State) (es : List Event), s.agenda = .agent .engRead :: es →
    s.engineFault Config.params = none →
    step s = .next (if s.engActive = true ∧ s.engPos < s.engLen then
      { s with agenda := es, engPos := s.engPos + 1, line := appendToLast s.line (s.buf.read s.engPos) }
      else { s with agenda := es })) ∧
  ∀ (s : State) (es : List Event), s.agenda = .agent .engNotify :: es →
    step s = if s.engActive = true ∧ s.engPos = s.engLen then
      exec (.complete s.engInst) { s with agenda := es } else .next { s with agenda := es }

/-- R11, R210: power-on gives the reset state for a well-formed configuration and refuses every other. -/
def Obligations.IllFormedConfigurationRefused : Prop :=
  ∀ cfg : Config.Params,
    (cfg.WellFormed → boot cfg = .next State.reset) ∧
    (¬ cfg.WellFormed → boot cfg = .refused .illFormedConfiguration)

/-- R40: the reset values the spec gives. -/
def Obligations.ResetValues : Prop :=
  (∀ a, State.reset.buf.read a = 0) ∧ State.reset.init = false ∧ State.reset.alc = 0 ∧
  State.reset.fsm = .idle ∧ State.reset.engActive = false ∧ State.reset.line = []

/-! ### The Encoder -/

/-- R110: the truncating scaling and every corner case the rule lists. -/
def Obligations.ScaleTruncates : Prop :=
  (∀ c br, scale c br = c * br / 100 % 256) ∧
  (∀ c br, c ≤ 255 → br ≤ 100 → scale c br = c * br / 100) ∧
  (∀ c, c ≤ 255 → scale c 100 = c) ∧ (∀ c, scale c 0 = 0) ∧ (∀ br, scale 0 br = 0) ∧
  scale 255 50 = 127 ∧ scale 1 99 = 0 ∧ scale 99 1 = 0 ∧ scale 100 1 = 1 ∧ scale 200 33 = 66 ∧
  (∀ c br, c ≤ 255 → br ≤ 100 → scale c br ≤ c) ∧
  (∀ c d br, c ≤ d → d ≤ 255 → br ≤ 100 → scale c br ≤ scale d br) ∧
  (∀ c br bs, c ≤ 255 → br ≤ bs → bs ≤ 100 → scale c br ≤ scale c bs)

/-- R111: above 100 the low 8 bits of the quotient are kept, so the result is the quotient less the multiple of
256 that brings it below 256; the quotient of 8-bit operands is at most 650. R111 marks this as the spec's own
choice (D6). -/
def Obligations.ScaleAboveContract : Prop :=
  scale 255 200 = 254 ∧ scale 128 200 = 0 ∧ scale 100 101 = 101 ∧
  ∀ c br, c ≤ 255 → br ≤ 255 → c * br ≤ 65025 ∧ c * br / 100 ≤ 650 ∧ scale c br < 256 ∧
    (scale c br = c * br / 100 ∨ scale c br + 256 = c * br / 100 ∨ scale c br + 512 = c * br / 100)

/-- R112: the two duty values, in every well-formed configuration. -/
def Obligations.BitDutyValues : Prop :=
  ∀ cfg : Config.Params, cfg.WellFormed →
    bitToDuty cfg true = cfg.bitOneDuty ∧ bitToDuty cfg false = cfg.bitZeroDuty ∧
    (∀ bit, bitToDuty cfg bit ≠ 0 ∧ bitToDuty cfg bit < 2 ^ cfg.slotW) ∧
    bitToDuty cfg true ≠ bitToDuty cfg false

/-- R113: element `8 * c + k` of Encode24 is the duty of bit `7 - k` of the scaled value of channel `c`,
channel 0 green, 1 red, 2 blue; there are 24 elements; brightness 0 and black give all zero bits, white at full
brightness all one bits; in a well-formed configuration no element is 0. -/
def Obligations.EncodeOrderGreenRedBlue : Prop :=
  ∀ (cfg : Config.Params) (r g b br : Byte),
    (encode24 cfg r g b br).length = 24 ∧
    (∀ k, k < 8 →
      (encode24 cfg r g b br)[k]? = some (bitToDuty cfg ((scale g.toNat br.toNat).testBit (7 - k))) ∧
      (encode24 cfg r g b br)[8 + k]? = some (bitToDuty cfg ((scale r.toNat br.toNat).testBit (7 - k))) ∧
      (encode24 cfg r g b br)[16 + k]? = some (bitToDuty cfg ((scale b.toNat br.toNat).testBit (7 - k)))) ∧
    encode24 cfg r g b 0#8 = List.replicate 24 cfg.bitZeroDuty ∧
    encode24 cfg 0#8 0#8 0#8 br = List.replicate 24 cfg.bitZeroDuty ∧
    encode24 cfg 255#8 255#8 255#8 100#8 = List.replicate 24 cfg.bitOneDuty ∧
    (cfg.WellFormed → 0 ∉ encode24 cfg r g b br)

/-- R121: the 24 slots of a colour read back as the three scaled channels. -/
def Obligations.EncodeReadsBack : Prop :=
  ∀ (cfg : Config.Params) (r g b br : Byte), cfg.WellFormed →
    readLed cfg (encode24 cfg r g b br) =
      some (scale g.toNat br.toNat, scale r.toNat br.toNat, scale b.toNat br.toNat)

/-- R60: whatever the byte order, an engine of the same word width reads back the slot value written, from
`SLOT_W / 8` bytes. -/
def Obligations.SlotBytesReadBack : Prop :=
  ∀ (cfg : Config.Params) (v : Nat), cfg.WellFormed → v < 2 ^ cfg.slotW →
    (bytesOfSlot cfg v).length * 8 = cfg.slotW ∧ slotOfBytes cfg (bytesOfSlot cfg v) = v

/-! ### The operations: what each does and what it leaves alone -/

/-- R130, R131: Init binds the output and clamps the count, whatever `FSM` is, and touches nothing else. -/
def Obligations.InitBindsAndClamps : Prop :=
  ∀ (h : Handle) (ch : Chan) (n : Nat) (s : State),
    exec (.init h ch n) s = .next { s with
      hnd := h
      chn := ch
      init := true
      alc := min n Config.params.capacity
      statusOut := some (if Config.params.capacity < n then .okClamped else .ok) }

/-- R132: SetLed writes Encode24 of its operands into the 24 slots of its LED group and no other slot, and
changes no register, whatever the other agents do between its slot writes; with none of their steps inside
it, the engine, `FSM` and the line are unchanged too. -/
def Obligations.SetLedWritesItsGroup : Prop :=
  ∀ (index : Nat) (r g b br : Byte) (s : State), s.init = true → index < s.alc →
    s.activeFault Config.params = none → s.buf.wf = true →
    ∃ t, exec (.setled index r g b br) s = .next t ∧
      (∀ k, k < 24 → t.buf.read (ledSlot index k) = (encode24 Config.params r g b br).getD k 0) ∧
      (∀ a, (∀ k, k < 24 → a ≠ ledSlot index k) → t.buf.read a = s.buf.read a) ∧
      t.alc = s.alc ∧ t.init = s.init ∧ t.hnd = s.hnd ∧ t.chn = s.chn ∧ t.progress = .none ∧
      t.engInst = s.engInst ∧ t.engChan = s.engChan ∧ t.engLen = s.engLen ∧ t.agenda = s.agenda ∧
      t.gaps = s.gaps.drop 24 ∧ t.statusOut = some .ok ∧
      (s.gaps = [] → t.fsm = s.fsm ∧ t.engActive = s.engActive ∧ t.engPos = s.engPos ∧ t.line = s.line)

/-- R135: FillAll writes Encode24 of its operands into the group of every active LED and no slot at or above
`ALC * 24`; with `ALC = 0` it writes nothing. -/
def Obligations.FillAllWritesActiveGroups : Prop :=
  ∀ (r g b br : Byte) (s : State), s.init = true → s.activeFault Config.params = none →
    s.buf.wf = true →
    ∃ t, exec (.fillall r g b br) s = .next t ∧
      (∀ i k, i < s.alc → k < 24 →
        t.buf.read (ledSlot i k) = (encode24 Config.params r g b br).getD k 0) ∧
      (∀ a, tailStart s.alc ≤ a → t.buf.read a = s.buf.read a) ∧
      t.alc = s.alc ∧ t.init = s.init ∧ t.hnd = s.hnd ∧ t.chn = s.chn ∧ t.progress = .none ∧
      t.engInst = s.engInst ∧ t.engChan = s.engChan ∧ t.engLen = s.engLen ∧ t.agenda = s.agenda ∧
      t.gaps = s.gaps.drop (24 * s.alc) ∧ t.statusOut = some .ok ∧
      (s.gaps = [] → t.fsm = s.fsm ∧ t.engActive = s.engActive ∧ t.engPos = s.engPos ∧ t.line = s.line)

/-- R138: PrepareResetTail zeroes every slot from `ALC * 24` through the end of the buffer and no other, with
INIT set or not, in either state of `FSM`. -/
def Obligations.PrepZeroesTail : Prop :=
  ∀ s : State, s.engineFault Config.params = none → s.buf.wf = true →
    ∃ t, exec .prep s = .next t ∧
      (∀ a, tailStart s.alc ≤ a → a < Config.params.bufLen → t.buf.read a = 0) ∧
      (∀ a, a < tailStart s.alc ∨ Config.params.bufLen ≤ a → t.buf.read a = s.buf.read a) ∧
      t.alc = s.alc ∧ t.init = s.init ∧ t.hnd = s.hnd ∧ t.chn = s.chn ∧ t.progress = .none ∧
      t.engInst = s.engInst ∧ t.engChan = s.engChan ∧ t.engLen = s.engLen ∧ t.agenda = s.agenda ∧
      t.gaps = s.gaps.drop (tailCount Config.params s.alc) ∧ t.statusOut = some .ok ∧
      (s.gaps = [] → t.fsm = s.fsm ∧ t.engActive = s.engActive ∧ t.engPos = s.engPos ∧ t.line = s.line)

/-- R150, R160, R63: Show zeroes the tail, then starts the engine on the window `[0, ALC * 24 +
RESET_SLOT_COUNT)` with nothing read yet and a new empty record, and enters Transmitting; no register but
`FSM` changes and no slot below the tail. The engine is inactive before (R38). -/
def Obligations.ShowStartsTransfer : Prop :=
  ∀ s : State, s.init = true → s.fsm = .idle → s.engActive = false →
    s.alc ≤ Config.params.capacity → s.buf.wf = true →
    ∃ t, exec .showStrip s = .next t ∧ t.fsm = .transmitting ∧ t.engActive = true ∧
      t.engInst = Config.params.instanceOf s.hnd ∧ t.engChan = s.chn ∧
      t.engLen = s.alc * 24 + Config.params.resetSlotCount ∧ t.engPos = 0 ∧ t.line = s.line ++ [[]] ∧
      (∀ a, tailStart s.alc ≤ a → a < Config.params.bufLen → t.buf.read a = 0) ∧
      (∀ a, a < tailStart s.alc ∨ Config.params.bufLen ≤ a → t.buf.read a = s.buf.read a) ∧
      t.alc = s.alc ∧ t.init = s.init ∧ t.hnd = s.hnd ∧ t.chn = s.chn ∧ t.progress = .none ∧
      t.agenda = s.agenda ∧ t.gaps = s.gaps.drop (tailCount Config.params s.alc + 1) ∧
      t.statusOut = some .ok

/-- R151: Show while Transmitting is ignored; nothing changes and nothing is remembered. -/
def Obligations.ShowWhileTransmittingIgnored : Prop :=
  ∀ s : State, s.init = true → s.fsm = .transmitting →
    exec .showStrip s = .next { s with statusOut := some .ignBusy }

/-- R153, R163: a completion for the bound instance while Transmitting stops the engine, wherever it stands,
and returns to Idle; no slot, no other register and no part of the line changes. That the engine's other fields
keep their values is read from R163's pseudocode (notes/assumptions/11.md); no rule reads them from then on. -/
def Obligations.CompleteStopsTransfer : Prop :=
  ∀ s : State, s.init = true → s.fsm = .transmitting →
    exec (.complete (Config.params.instanceOf s.hnd)) s =
      .next { s with engActive := false, fsm := .idle, statusOut := some .ok }

/-- R181: when the status is that of an ignored operation, the operation changes nothing but the status
output. -/
def Obligations.IgnoredOperationChangesNothing : Prop :=
  ∀ (i : Instr) (s : State), statusIgnored (statusOf Config.params i s) = true →
    exec i s = .next { s with statusOut := some (statusOf Config.params i s) }

/-- R182: after an operation the status output shows the code its operands and the state before it decide. That
this is so whatever the other agents did inside the operation, because the operation's code is driven after that
of a notification handled inside it, is the model's choice (notes/assumptions/4.md). -/
def Obligations.StatusIsFunctionOfStateBefore : Prop :=
  ∀ (i : Instr) (s t : State), exec i s = .next t → t.statusOut = some (statusOf Config.params i s)

/-- R184: which code is shown when more than one ignore condition holds. -/
def Obligations.StatusPriority : Prop :=
  (∀ index r g b br (s : State), s.init = false → s.alc ≤ index →
    exec (.setled index r g b br) s = .next { s with statusOut := some .ignUninit }) ∧
  (∀ s : State, s.init = false → s.fsm = .transmitting →
    exec .showStrip s = .next { s with statusOut := some .ignUninit }) ∧
  (∀ id (s : State), s.init = false →
    exec (.complete id) s = .next { s with statusOut := some .ignUninit }) ∧
  (∀ id (s : State), s.init = true → id ≠ Config.params.instanceOf s.hnd → s.fsm = .idle →
    exec (.complete id) s = .next { s with statusOut := some .ignInstance }) ∧
  (∀ id (s : State), s.init = true → id = Config.params.instanceOf s.hnd → s.fsm = .idle →
    exec (.complete id) s = .next { s with statusOut := some .ignIdle }) ∧
  ∀ p w r (s : State), decode p w = .error r →
    deliver p w s = .next { s with statusOut := some .ignBadOp }

/-- When an operation stops: only in a state that R34, R42 or R160 rules out (the model's own guards,
notes/assumptions/6.md), and never by a refusal. -/
def Obligations.OperationsStopOnlyOutsideInvariant : Prop :=
  ∀ (i : Instr) (s : State),
    (∀ r, exec i s ≠ .refused r) ∧
    ∀ f, exec i s = .fault f →
      (f = .slotOutsideBuffer ∧ (Config.params.capacity < s.alc ∨
        (s.engActive = true ∧ Config.params.bufLen < s.engLen))) ∨
      (f = .noTransferRecord ∧ s.engActive = true ∧ s.line = [])

/-- R115: the 24 values written do not depend on the LED index. -/
def Obligations.ColourIndependentOfIndex : Prop :=
  ∀ (i j : Nat) (r g b br : Byte) (s t u : State), s.init = true → i < s.alc → j < s.alc →
    s.buf.wf = true → exec (.setled i r g b br) s = .next t → exec (.setled j r g b br) s = .next u →
    ∀ k, k < 24 → t.buf.read (ledSlot i k) = u.buf.read (ledSlot j k)

/-- R95, R135: FillAll is the sequence of SetLeds of the active LEDs in ascending order, under every
schedule; only the status output of an empty sequence differs. That the lines agree when reads of the engine race
with the writes rests on the order of writes of R57 and R95, the spec's own choice (D13, D22). -/
def Obligations.FillAllIsSetLedSequence : Prop :=
  ∀ (r g b br : Byte) (s : State), s.init = true → s.activeFault Config.params = none →
    s.progress = .none →
    ∃ t, execAll ((List.range s.alc).map fun i => .setled i r g b br) s = .next t ∧
      exec (.fillall r g b br) s = .next { t with statusOut := some .ok }

/-- R58, R191: what the other agents do between the atomic steps of an operation changes neither the
buffer nor any register but `FSM` after it. -/
def Obligations.InterleavingLeavesOperationAlone : Prop :=
  ∀ (i : Instr) (s t u : State) (gs : List (List AgentStep)),
    exec i s = .next t → exec i { s with gaps := gs } = .next u →
    u.buf = t.buf ∧ u.alc = t.alc ∧ u.init = t.init ∧ u.hnd = t.hnd ∧ u.chn = t.chn ∧
      u.progress = t.progress ∧ u.statusOut = t.statusOut ∧ u.agenda = t.agenda

/-- R61, R62, R64, U2: whatever reads of the engine fall inside an operation while Transmitting, under every
schedule, the values appended to the open record are those of consecutive slots from `ENG_POS` on, each either
the value its slot held before the operation or the value the operation writes to it (`writtenValue`: for SETLED
and FILLALL Encode24's, for PREP 0). Nothing is said of which, so nothing rests on the order of the writes. -/
def Obligations.RacingReadsSeeOldOrNewValue : Prop :=
  ∀ (i : Instr) (s t : State) (ls : List (List Slot)) (r : List Slot), s.fsm = .transmitting →
    s.engActive = true → s.buf.wf = true → s.line = ls ++ [r] → exec i s = .next t →
    ∃ vs, t.line = ls ++ [r ++ vs] ∧ t.engPos = s.engPos + vs.length ∧
      ∀ j v, vs[j]? = some v → v = s.buf.read (s.engPos + j) ∨
        writtenValue Config.params i s (s.engPos + j) = some v

/-! ### The state machine and the engine -/

/-- R155: the next state of `FSM` for every operation in either state, with no other agent inside it. -/
def Obligations.StateMachineTable : Prop :=
  ∀ (i : Instr) (s t : State), exec i s = .next t → s.gaps = [] →
    (s.fsm = .idle → t.fsm = if i = .showStrip ∧ s.init = true then .transmitting else .idle) ∧
    (s.fsm = .transmitting → t.fsm =
      if s.init = true ∧ i = .complete (Config.params.instanceOf s.hnd) then .idle else .transmitting)

/-- Only a Show that takes effect enters Transmitting, whatever the agents do (R26, R155). -/
def Obligations.OnlyShowStartsTransmitting : Prop :=
  ∀ s t : State, step s = .next t → s.fsm = .idle → t.fsm = .transmitting →
    s.init = true ∧ ∃ w es, s.agenda = .cmdWord w :: es ∧ decode .cmd w = .ok .showStrip

/-- Without a matching notification the block stays in Transmitting (R232, R155): no timeout, no abort. -/
def Obligations.StaysTransmittingUntilMatch : Prop :=
  ∀ s t : State, step s = .next t → s.fsm = .transmitting →
    (∀ e ∈ s.agenda.head?, ¬ e.isMatch Config.params s) →
    (∀ g ∈ s.gaps, ∀ a ∈ g, ¬ a.isMatch Config.params s) → t.fsm = .transmitting

/-- R230: after a rebinding to another instance during a transfer, the engine's own notification is ignored. -/
def Obligations.RebindingLosesNotification : Prop :=
  ∀ (s : State) (es : List Event), s.init = true → s.agenda = .agent .engNotify :: es →
    s.engActive = true → s.engPos = s.engLen → s.engInst ≠ Config.params.instanceOf s.hnd →
    step s = .next { s with agenda := es, statusOut := some .ignInstance }

/-- R161: `n` reads of an active engine clock out the next `n` slots in ascending order, each once, each with
the value the slot holds, and change nothing else. -/
def Obligations.EngineReadsAscending : Prop :=
  ∀ (s : State) (n : Nat) (ls : List (List Slot)) (r : List Slot) (es : List Event),
    s.engActive = true → s.engPos + n ≤ s.engLen → s.engLen ≤ Config.params.bufLen →
    s.line = ls ++ [r] → s.agenda = agentsOnly (List.replicate n .engRead) ++ es →
    runSteps n s = .next { s with
      agenda := es
      engPos := s.engPos + n
      line := ls ++ [r ++ (List.range' s.engPos n).map s.buf.read] }

/-- R163, R164: while the engine is inactive and `FSM` is Idle, steps of the other agents change neither the
line nor anything else but the status output, however many there are. -/
def Obligations.StoppedEngineStaysStopped : Prop :=
  ∀ (s : State) (steps : List AgentStep) (es : List Event), s.engActive = false → s.fsm = .idle →
    s.agenda = agentsOnly steps ++ es →
    ∃ c, runSteps steps.length s = .next { s with agenda := es, statusOut := c }

/-! ### Invariants -/

/-- The invariants hold after reset. -/
def Obligations.InvariantAtReset : Prop := Inv Config.params State.reset

/-- Every step keeps the invariants, from every state that meets them and under every schedule. -/
def Obligations.StepKeepsInvariant : Prop :=
  ∀ s t : State, Inv Config.params s → step s = .next t → Inv Config.params t

/-- R180, R53: from a state that meets the invariants every step answers a next state: nothing faults and no
access falls outside the buffer. -/
def Obligations.NoStepFaults : Prop :=
  ∀ s : State, Inv Config.params s → ∃ t, step s = .next t

/-- R34: `ALC` is 0 at reset and within the capacity in every reachable state; only Init writes it. -/
def Obligations.ActiveCountWithinCapacity : Prop :=
  State.reset.alc = 0 ∧ (∀ s, Reachable s → s.alc ≤ Config.params.capacity) ∧
  ∀ (i : Instr) (s t : State), exec i s = .next t →
    t.alc = match i with
      | .init _ _ n => min n Config.params.capacity
      | _ => s.alc

/-- R36, R140, R53: in every reachable state a slot holds 0 or one of the two duty values, and a slot at or
above `CAPACITY * 24` holds 0. -/
def Obligations.SlotValuesAreCodes : Prop :=
  ∀ s, Reachable s →
    (∀ a, s.buf.read a = 0 ∨ s.buf.read a = Config.params.bitZeroDuty ∨
      s.buf.read a = Config.params.bitOneDuty) ∧
    ∀ a, Config.params.capacity * 24 ≤ a → s.buf.read a = 0

/-- R37: in every reachable state with `INIT = 0` every slot is 0, `FSM` is Idle, the engine is inactive and
the line is empty. -/
def Obligations.NothingBeforeInit : Prop :=
  ∀ s, Reachable s → s.init = false →
    (∀ a, s.buf.read a = 0) ∧ s.fsm = .idle ∧ s.engActive = false ∧ s.line = []

/-- R38, R39: in every reachable state `FSM` is Transmitting exactly when the engine is active, and then
`INIT` is set; and no step clears `INIT`. -/
def Obligations.TransmittingMeansActiveAndBound : Prop :=
  (∀ s, Reachable s → (s.fsm = .transmitting ↔ s.engActive = true)) ∧
  (∀ s, Reachable s → s.fsm = .transmitting → s.init = true) ∧
  ∀ s t : State, step s = .next t → s.init = true → t.init = true

/-- R42: in every reachable state an active engine's window is `n * 24 + RESET_SLOT_COUNT` slots for an
`n ≤ CAPACITY` and lies in the buffer, and its position lies in the window. -/
def Obligations.EngineWindowInBuffer : Prop :=
  ∀ s, Reachable s → s.engActive = true →
    (∃ n, n ≤ Config.params.capacity ∧ s.engLen = n * 24 + Config.params.resetSlotCount) ∧
    Config.params.resetSlotCount ≤ s.engLen ∧ s.engLen ≤ Config.params.bufLen ∧ s.engPos ≤ s.engLen

/-- R211: operations other than Init, in any number and under any schedule, leave the reset state as it is;
only the status output and the schedule move on. -/
def Obligations.NothingHappensUntilInit : Prop :=
  ∀ (is : List Instr) (gs : List (List AgentStep)), (∀ h ch n, .init h ch n ∉ is) →
    ∃ c gs', execAll is { State.reset with gaps := gs } =
      .next { State.reset with gaps := gs', statusOut := c }

/-- R140: after any operations from reset, with no engine activity between them, every slot holds what the
latest of the last colour that took effect on its LED and the last zeroing of its LED gives. -/
def Obligations.BufferIsFunctionOfHistory : Prop :=
  ∀ is : List Instr, ∃ t, execAll is State.reset = .next t ∧
    ∀ a, t.buf.read a = histSlot Config.params is.reverse a

/-- R168: after a Show that takes effect, in a run that keeps `APP_DISCIPLINE` and `ENV_NOTIFY_AT_END`, when the
block is next Idle the line has grown by exactly one record: the active LED groups as the buffer held them, then
`RESET_SLOT_COUNT` zeros. Any steps of the other agents, ignored Shows and rejected words may come in between. -/
def Obligations.DisciplinedRunSendsFrame : Prop :=
  ∀ (run : Nat → State) (n : Nat) (w : Word) (es : List Event), Inv Config.params (run 0) →
    (run 0).init = true → (run 0).fsm = .idle → (run 0).agenda = .cmdWord w :: es →
    decode .cmd w = .ok .showStrip → RunTo (n + 1) run →
    (∀ k, k ≤ n → AppDiscipline (run k) ∧ NotifyAtEnd Config.params (run k)) →
    (∀ k, 0 < k → k ≤ n → (run k).fsm = .transmitting) → (run (n + 1)).fsm = .idle →
    (run (n + 1)).line = (run 0).line ++ [frameOf Config.params (run 0)]

/-- The block returns to Idle with the whole frame sent once the engine has taken its reads and its
notification (R166 (d), R168): `24 * ALC + RESET_SLOT_COUNT` reads and one notification after the Show. -/
def Obligations.TransferCompletes : Prop :=
  ∀ (s : State) (w : Word) (n : Nat), Inv Config.params s → s.init = true → s.fsm = .idle →
    n = s.alc * 24 + Config.params.resetSlotCount → decode .cmd w = .ok .showStrip →
    s.agenda = .cmdWord w :: agentsOnly (List.replicate n .engRead ++ [.engNotify]) →
    ∃ u, runSteps (n + 2) s = .next u ∧ Quiescent u ∧
      u.line = s.line ++ [frameOf Config.params s]

/-! ### Status numbers, histories step by step, and the return to Idle -/

/-- R182: the 3-bit number of each code on the status output; so different codes show different numbers. -/
def Obligations.StatusCodeNumbers : Prop :=
  statusCode .ok = 0#3 ∧ statusCode .ignUninit = 1#3 ∧ statusCode .ignRange = 2#3 ∧
  statusCode .ignBusy = 3#3 ∧ statusCode .ignInstance = 4#3 ∧ statusCode .ignIdle = 5#3 ∧
  statusCode .okClamped = 6#3 ∧ statusCode .ignBadOp = 7#3 ∧
  ∀ c d, statusCode c = statusCode d → c = d

/-- R140, step by step: from a state that is what a history makes of it, an operation with no other agent inside
it answers a state that is what the history with that operation added makes of it. -/
def Obligations.OperationKeepsHistoryAgreement : Prop :=
  ∀ (i : Instr) (is : List Instr) (s t : State), Inv Config.params s → Agrees Config.params is s →
    s.gaps = [] → exec i s = .next t → Agrees Config.params (i :: is) t

/-- R166 (d), R167: in a run without end that starts Idle and keeps `APP_DISCIPLINE` and
`ENV_EVENTUALLY_NOTIFIES`, the block is Idle again after every transfer (the reading of the two premises is
notes/assumptions/15.md). -/
def Obligations.DisciplinedRunReturnsToIdle : Prop :=
  ∀ run : Nat → State, Run run → Inv Config.params (run 0) → (run 0).fsm = .idle →
    (∀ k, AppDiscipline (run k)) → EventuallyNotifies Config.params run →
    ∀ k, (run k).fsm = .transmitting → ∃ j, k ≤ j ∧ (run j).fsm = .idle
end

