-- ==== Sys2Proof/Laws/Decode.lean ====
section
/-! SUPPORT. Small lemmas of the decoder and the encoder (spec/30_encoding.md). -/

namespace Sys2Proof

/-- One bit of a field put in its place. -/
theorem place_getLsbD {n : Nat} (v : BitVec n) (lo k : Nat) :
    (place v lo).getLsbD k = (decide (k < 64) && (!decide (k < lo) && v.getLsbD (k - lo))) := by
  by_cases h : k < 64 <;> simp [place, h]

/-- A field read where it was put. -/
theorem place_field_same {n : Nat} (v : BitVec n) (lo : Nat) (h : lo + n ≤ 64) :
    (place v lo).extractLsb' lo n = v := by
  apply BitVec.eq_of_getLsbD_eq
  intro k hk
  rw [BitVec.getLsbD_extractLsb', place_getLsbD]
  have h1 : lo + k < 64 := by omega
  have h2 : ¬ lo + k < lo := by omega
  simp [hk, h1]

/-- A field read where another was put. -/
theorem place_field_other {n : Nat} (v : BitVec n) (lo s len : Nat) (h : s + len ≤ lo ∨ lo + n ≤ s) :
    (place v lo).extractLsb' s len = 0#len := by
  apply BitVec.eq_of_getLsbD_eq
  intro k hk
  rw [BitVec.getLsbD_extractLsb', place_getLsbD, BitVec.getLsbD_zero]
  rcases h with h | h
  · have : s + k < lo := by omega
    simp [this]
  · have : v.getLsbD (s + k - lo) = false := BitVec.getLsbD_of_ge _ _ (by omega)
    simp [this]

/-- Everything a decoded word can be (R93). -/
theorem decode_ok (p : Port) (w : Word) (i : Instr) (h : decode p w = .ok i) :
    decodeFields w = some i ∧ i.port = p := by
  unfold decode at h
  split at h
  · cases h
  · rename_i j hj
    split at h
    · rename_i hp; cases h; exact ⟨hj, hp⟩
    · cases h

theorem decode_eq_ok (p : Port) (w : Word) (i : Instr) (h : decodeFields w = some i) (hp : i.port = p) :
    decode p w = .ok i := by
  unfold decode; rw [h]; simp [hp]

/-- A reserved opcode is no operation on either port (R89). -/
theorem decode_reserved (p : Port) (w : Word)
    (h : ∀ i, decodeFields w ≠ some i) : decode p w = .error .reservedOpcode := by
  unfold decode
  split
  · rfl
  · rename_i i hi; exact absurd hi (h i)

end Sys2Proof
end

