-- ==== Sys2Proof/Laws/Memory.lean ====
section
/-! SUPPORT. The timing buffer: every write keeps the one form of the buffer, and a read after a write
gives the value written at its slot and the old value at every other (spec/20_memory.md R54, R55). -/

namespace Sys2Proof
namespace Machine
namespace Memory

@[simp] theorem read_nil (a : Nat) : Memory.read [] a = 0 := rfl

theorem read_cons (b : Nat) (v : Slot) (m : Memory) (a : Nat) :
    Memory.read ((b, v) :: m) a = if a = b then v else Memory.read m a := rfl

theorem wf_cons (a : Nat) (v : Slot) (m : Memory) :
    Memory.wf ((a, v) :: m) = true ↔ v ≠ 0 ∧ (∀ c ∈ m, a < c.1) ∧ Memory.wf m = true := by
  simp [Memory.wf, and_assoc]

/-- A slot below every listed one is not listed. -/
theorem read_eq_zero_of_lt (m : Memory) (a : Nat) (h : ∀ c ∈ m, a < c.1) : m.read a = 0 := by
  induction m with
  | nil => rfl
  | cons c m ih =>
    have hc := h c (by simp)
    rw [read_cons, if_neg (by omega), ih fun d hd => h d (by simp [hd])]

/-- A cell of a buffer after a write is the one written or was there before. -/
theorem mem_write (m : Memory) (a : Nat) (v : Slot) (c : Cell) (h : c ∈ m.write a v) :
    (c = (a, v) ∧ v ≠ 0) ∨ c ∈ m := by
  induction m with
  | nil => simp only [Memory.write] at h; split at h <;> simp_all
  | cons d m ih =>
    obtain ⟨b, u⟩ := d
    simp only [Memory.write] at h
    split_ifs at h <;> simp only [List.mem_cons] at h ⊢ <;> tauto

theorem write_wf (m : Memory) (a : Nat) (v : Slot) (h : m.wf = true) : (m.write a v).wf = true := by
  induction m with
  | nil => simp only [Memory.write]; split <;> simp_all [Memory.wf]
  | cons d m ih =>
    obtain ⟨b, u⟩ := d
    obtain ⟨hu, hb, hm⟩ := (wf_cons b u m).1 h
    simp only [Memory.write]
    split_ifs with h1 h2 h3 h4
    · exact h
    · refine (wf_cons _ _ _).2 ⟨h2, ?_, h⟩
      intro c hc
      rcases List.mem_cons.1 hc with rfl | hc
      · exact h1
      · have := hb c hc; omega
    · exact hm
    · exact (wf_cons _ _ _).2 ⟨h4, by subst h3; exact hb, hm⟩
    · refine (wf_cons _ _ _).2 ⟨hu, ?_, ih hm⟩
      intro c hc
      rcases mem_write m a v c hc with ⟨rfl, _⟩ | hc
      · show b < a; omega
      · exact hb c hc

/-- R54, R55: what a slot reads as after a write. -/
theorem read_write (m : Memory) (a : Nat) (v : Slot) (x : Nat) (h : m.wf = true) :
    (m.write a v).read x = if x = a then v else m.read x := by
  induction m with
  | nil =>
    simp only [Memory.write]
    split <;> simp_all [read_cons]
  | cons d m ih =>
    obtain ⟨b, u⟩ := d
    obtain ⟨_, hb, hm⟩ := (wf_cons b u m).1 h
    have hz : ∀ y, y ≤ b → Memory.read m y = 0 := fun y hy =>
      read_eq_zero_of_lt m y fun c hc => by have := hb c hc; omega
    rcases Nat.lt_trichotomy a b with hlt | rfl | hgt
    · by_cases hv : v = 0
      · simp only [Memory.write, if_pos hlt, if_pos hv]
        by_cases hx : x = a
        · rw [if_pos hx, read_cons, if_neg (by omega), hz x (by omega), hv]
        · rw [if_neg hx]
      · simp only [Memory.write, if_pos hlt, if_neg hv]
        rw [read_cons]
    · by_cases hv : v = 0
      · simp only [Memory.write, if_neg (Nat.lt_irrefl a), if_pos hv, if_true]
        by_cases hx : x = a
        · rw [if_pos hx, hz x (by omega), hv]
        · rw [if_neg hx, read_cons, if_neg hx]
      · simp only [Memory.write, if_neg (Nat.lt_irrefl a), if_neg hv, if_true]
        by_cases hx : x = a
        · rw [if_pos hx, read_cons, if_pos hx]
        · rw [if_neg hx, read_cons, if_neg hx, read_cons, if_neg hx]
    · simp only [Memory.write, if_neg (show ¬ a < b by omega), if_neg (show ¬ a = b by omega)]
      rw [read_cons, read_cons, ih hm]
      by_cases hx : x = a
      · rw [if_pos hx, if_pos hx, if_neg (by omega)]
      · rw [if_neg hx, if_neg hx]

/-- Two buffers in the one form that read alike are equal. -/
theorem eq_of_read (m n : Memory) (hm : m.wf = true) (hn : n.wf = true)
    (h : ∀ a, m.read a = n.read a) : m = n := by
  induction m generalizing n with
  | nil =>
    cases n with
    | nil => rfl
    | cons d n =>
      obtain ⟨b, u⟩ := d
      have := h b
      simp [read_cons] at this
      exact absurd this.symm ((wf_cons b u n).1 hn).1
  | cons c m ih =>
    obtain ⟨a, v⟩ := c
    obtain ⟨hv, ha, hm'⟩ := (wf_cons a v m).1 hm
    cases n with
    | nil => have := h a; simp [read_cons] at this; exact absurd this hv
    | cons d n =>
      obtain ⟨b, u⟩ := d
      obtain ⟨hu, hb, hn'⟩ := (wf_cons b u n).1 hn
      have hab : a = b := by
        rcases Nat.lt_trichotomy a b with hlt | heq | hgt
        · have h0 := h a
          rw [read_cons, read_cons, if_pos rfl, if_neg (by omega),
            read_eq_zero_of_lt n a fun c hc => by have := hb c hc; omega] at h0
          exact absurd h0 hv
        · exact heq
        · have h0 := h b
          rw [read_cons, read_cons, if_pos rfl, if_neg (by omega),
            read_eq_zero_of_lt m b fun c hc => by have := ha c hc; omega] at h0
          exact absurd h0.symm hu
      subst hab
      have huv : v = u := by simpa [read_cons] using h a
      subst huv
      congr 1
      refine ih n hm' hn' fun x => ?_
      by_cases hx : x = a
      · subst hx; rw [read_eq_zero_of_lt m x ha, read_eq_zero_of_lt n x hb]
      · have := h x; rwa [read_cons, read_cons, if_neg hx, if_neg hx] at this

end Memory
end Machine
end Sys2Proof
end

