-- ==== Sys2Proof/Laws/State.lean ====
section
/-! SUPPORT. One lemma per field per update of State (Machine/Ops.lean), each true by unfolding, so that no
proof unfolds a record update. -/

namespace Sys2Proof
namespace Machine
namespace State

@[simp] theorem drive_alc (s : State) (c : Status) : (s.drive c).alc = s.alc := rfl
@[simp] theorem drive_init (s : State) (c : Status) : (s.drive c).init = s.init := rfl
@[simp] theorem drive_hnd (s : State) (c : Status) : (s.drive c).hnd = s.hnd := rfl
@[simp] theorem drive_chn (s : State) (c : Status) : (s.drive c).chn = s.chn := rfl
@[simp] theorem drive_fsm (s : State) (c : Status) : (s.drive c).fsm = s.fsm := rfl
@[simp] theorem drive_buf (s : State) (c : Status) : (s.drive c).buf = s.buf := rfl
@[simp] theorem drive_progress (s : State) (c : Status) : (s.drive c).progress = s.progress := rfl
@[simp] theorem drive_engActive (s : State) (c : Status) : (s.drive c).engActive = s.engActive := rfl
@[simp] theorem drive_engInst (s : State) (c : Status) : (s.drive c).engInst = s.engInst := rfl
@[simp] theorem drive_engChan (s : State) (c : Status) : (s.drive c).engChan = s.engChan := rfl
@[simp] theorem drive_engLen (s : State) (c : Status) : (s.drive c).engLen = s.engLen := rfl
@[simp] theorem drive_engPos (s : State) (c : Status) : (s.drive c).engPos = s.engPos := rfl
@[simp] theorem drive_line (s : State) (c : Status) : (s.drive c).line = s.line := rfl
@[simp] theorem drive_statusOut (s : State) (c : Status) : (s.drive c).statusOut = some c := rfl
@[simp] theorem drive_agenda (s : State) (c : Status) : (s.drive c).agenda = s.agenda := rfl
@[simp] theorem drive_gaps (s : State) (c : Status) : (s.drive c).gaps = s.gaps := rfl

@[simp] theorem bindOutput_alc (s : State) (h : Handle) (ch : Chan) (n : Nat) : (s.bindOutput h ch n).alc = n := rfl
@[simp] theorem bindOutput_init (s : State) (h : Handle) (ch : Chan) (n : Nat) : (s.bindOutput h ch n).init = true := rfl
@[simp] theorem bindOutput_hnd (s : State) (h : Handle) (ch : Chan) (n : Nat) : (s.bindOutput h ch n).hnd = h := rfl
@[simp] theorem bindOutput_chn (s : State) (h : Handle) (ch : Chan) (n : Nat) : (s.bindOutput h ch n).chn = ch := rfl
@[simp] theorem bindOutput_fsm (s : State) (h : Handle) (ch : Chan) (n : Nat) : (s.bindOutput h ch n).fsm = s.fsm := rfl
@[simp] theorem bindOutput_buf (s : State) (h : Handle) (ch : Chan) (n : Nat) : (s.bindOutput h ch n).buf = s.buf := rfl
@[simp] theorem bindOutput_progress (s : State) (h : Handle) (ch : Chan) (n : Nat) : (s.bindOutput h ch n).progress = s.progress := rfl
@[simp] theorem bindOutput_engActive (s : State) (h : Handle) (ch : Chan) (n : Nat) : (s.bindOutput h ch n).engActive = s.engActive := rfl
@[simp] theorem bindOutput_engInst (s : State) (h : Handle) (ch : Chan) (n : Nat) : (s.bindOutput h ch n).engInst = s.engInst := rfl
@[simp] theorem bindOutput_engChan (s : State) (h : Handle) (ch : Chan) (n : Nat) : (s.bindOutput h ch n).engChan = s.engChan := rfl
@[simp] theorem bindOutput_engLen (s : State) (h : Handle) (ch : Chan) (n : Nat) : (s.bindOutput h ch n).engLen = s.engLen := rfl
@[simp] theorem bindOutput_engPos (s : State) (h : Handle) (ch : Chan) (n : Nat) : (s.bindOutput h ch n).engPos = s.engPos := rfl
@[simp] theorem bindOutput_line (s : State) (h : Handle) (ch : Chan) (n : Nat) : (s.bindOutput h ch n).line = s.line := rfl
@[simp] theorem bindOutput_statusOut (s : State) (h : Handle) (ch : Chan) (n : Nat) : (s.bindOutput h ch n).statusOut = s.statusOut := rfl
@[simp] theorem bindOutput_agenda (s : State) (h : Handle) (ch : Chan) (n : Nat) : (s.bindOutput h ch n).agenda = s.agenda := rfl
@[simp] theorem bindOutput_gaps (s : State) (h : Handle) (ch : Chan) (n : Nat) : (s.bindOutput h ch n).gaps = s.gaps := rfl

@[simp] theorem setFsm_alc (s : State) (f : Fsm) : (s.setFsm f).alc = s.alc := rfl
@[simp] theorem setFsm_init (s : State) (f : Fsm) : (s.setFsm f).init = s.init := rfl
@[simp] theorem setFsm_hnd (s : State) (f : Fsm) : (s.setFsm f).hnd = s.hnd := rfl
@[simp] theorem setFsm_chn (s : State) (f : Fsm) : (s.setFsm f).chn = s.chn := rfl
@[simp] theorem setFsm_fsm (s : State) (f : Fsm) : (s.setFsm f).fsm = f := rfl
@[simp] theorem setFsm_buf (s : State) (f : Fsm) : (s.setFsm f).buf = s.buf := rfl
@[simp] theorem setFsm_progress (s : State) (f : Fsm) : (s.setFsm f).progress = s.progress := rfl
@[simp] theorem setFsm_engActive (s : State) (f : Fsm) : (s.setFsm f).engActive = s.engActive := rfl
@[simp] theorem setFsm_engInst (s : State) (f : Fsm) : (s.setFsm f).engInst = s.engInst := rfl
@[simp] theorem setFsm_engChan (s : State) (f : Fsm) : (s.setFsm f).engChan = s.engChan := rfl
@[simp] theorem setFsm_engLen (s : State) (f : Fsm) : (s.setFsm f).engLen = s.engLen := rfl
@[simp] theorem setFsm_engPos (s : State) (f : Fsm) : (s.setFsm f).engPos = s.engPos := rfl
@[simp] theorem setFsm_line (s : State) (f : Fsm) : (s.setFsm f).line = s.line := rfl
@[simp] theorem setFsm_statusOut (s : State) (f : Fsm) : (s.setFsm f).statusOut = s.statusOut := rfl
@[simp] theorem setFsm_agenda (s : State) (f : Fsm) : (s.setFsm f).agenda = s.agenda := rfl
@[simp] theorem setFsm_gaps (s : State) (f : Fsm) : (s.setFsm f).gaps = s.gaps := rfl

@[simp] theorem memWrite_alc (s : State) (a : Nat) (v : Slot) : (s.memWrite a v).alc = s.alc := rfl
@[simp] theorem memWrite_init (s : State) (a : Nat) (v : Slot) : (s.memWrite a v).init = s.init := rfl
@[simp] theorem memWrite_hnd (s : State) (a : Nat) (v : Slot) : (s.memWrite a v).hnd = s.hnd := rfl
@[simp] theorem memWrite_chn (s : State) (a : Nat) (v : Slot) : (s.memWrite a v).chn = s.chn := rfl
@[simp] theorem memWrite_fsm (s : State) (a : Nat) (v : Slot) : (s.memWrite a v).fsm = s.fsm := rfl
@[simp] theorem memWrite_buf (s : State) (a : Nat) (v : Slot) : (s.memWrite a v).buf = s.buf.write a v := rfl
@[simp] theorem memWrite_progress (s : State) (a : Nat) (v : Slot) : (s.memWrite a v).progress = s.progress := rfl
@[simp] theorem memWrite_engActive (s : State) (a : Nat) (v : Slot) : (s.memWrite a v).engActive = s.engActive := rfl
@[simp] theorem memWrite_engInst (s : State) (a : Nat) (v : Slot) : (s.memWrite a v).engInst = s.engInst := rfl
@[simp] theorem memWrite_engChan (s : State) (a : Nat) (v : Slot) : (s.memWrite a v).engChan = s.engChan := rfl
@[simp] theorem memWrite_engLen (s : State) (a : Nat) (v : Slot) : (s.memWrite a v).engLen = s.engLen := rfl
@[simp] theorem memWrite_engPos (s : State) (a : Nat) (v : Slot) : (s.memWrite a v).engPos = s.engPos := rfl
@[simp] theorem memWrite_line (s : State) (a : Nat) (v : Slot) : (s.memWrite a v).line = s.line := rfl
@[simp] theorem memWrite_statusOut (s : State) (a : Nat) (v : Slot) : (s.memWrite a v).statusOut = s.statusOut := rfl
@[simp] theorem memWrite_agenda (s : State) (a : Nat) (v : Slot) : (s.memWrite a v).agenda = s.agenda := rfl
@[simp] theorem memWrite_gaps (s : State) (a : Nat) (v : Slot) : (s.memWrite a v).gaps = s.gaps := rfl

@[simp] theorem setProgress_alc (s : State) (p : Progress) : (s.setProgress p).alc = s.alc := rfl
@[simp] theorem setProgress_init (s : State) (p : Progress) : (s.setProgress p).init = s.init := rfl
@[simp] theorem setProgress_hnd (s : State) (p : Progress) : (s.setProgress p).hnd = s.hnd := rfl
@[simp] theorem setProgress_chn (s : State) (p : Progress) : (s.setProgress p).chn = s.chn := rfl
@[simp] theorem setProgress_fsm (s : State) (p : Progress) : (s.setProgress p).fsm = s.fsm := rfl
@[simp] theorem setProgress_buf (s : State) (p : Progress) : (s.setProgress p).buf = s.buf := rfl
@[simp] theorem setProgress_progress (s : State) (p : Progress) : (s.setProgress p).progress = p := rfl
@[simp] theorem setProgress_engActive (s : State) (p : Progress) : (s.setProgress p).engActive = s.engActive := rfl
@[simp] theorem setProgress_engInst (s : State) (p : Progress) : (s.setProgress p).engInst = s.engInst := rfl
@[simp] theorem setProgress_engChan (s : State) (p : Progress) : (s.setProgress p).engChan = s.engChan := rfl
@[simp] theorem setProgress_engLen (s : State) (p : Progress) : (s.setProgress p).engLen = s.engLen := rfl
@[simp] theorem setProgress_engPos (s : State) (p : Progress) : (s.setProgress p).engPos = s.engPos := rfl
@[simp] theorem setProgress_line (s : State) (p : Progress) : (s.setProgress p).line = s.line := rfl
@[simp] theorem setProgress_statusOut (s : State) (p : Progress) : (s.setProgress p).statusOut = s.statusOut := rfl
@[simp] theorem setProgress_agenda (s : State) (p : Progress) : (s.setProgress p).agenda = s.agenda := rfl
@[simp] theorem setProgress_gaps (s : State) (p : Progress) : (s.setProgress p).gaps = s.gaps := rfl

@[simp] theorem setAgenda_alc (s : State) (es : List Event) : (s.setAgenda es).alc = s.alc := rfl
@[simp] theorem setAgenda_init (s : State) (es : List Event) : (s.setAgenda es).init = s.init := rfl
@[simp] theorem setAgenda_hnd (s : State) (es : List Event) : (s.setAgenda es).hnd = s.hnd := rfl
@[simp] theorem setAgenda_chn (s : State) (es : List Event) : (s.setAgenda es).chn = s.chn := rfl
@[simp] theorem setAgenda_fsm (s : State) (es : List Event) : (s.setAgenda es).fsm = s.fsm := rfl
@[simp] theorem setAgenda_buf (s : State) (es : List Event) : (s.setAgenda es).buf = s.buf := rfl
@[simp] theorem setAgenda_progress (s : State) (es : List Event) : (s.setAgenda es).progress = s.progress := rfl
@[simp] theorem setAgenda_engActive (s : State) (es : List Event) : (s.setAgenda es).engActive = s.engActive := rfl
@[simp] theorem setAgenda_engInst (s : State) (es : List Event) : (s.setAgenda es).engInst = s.engInst := rfl
@[simp] theorem setAgenda_engChan (s : State) (es : List Event) : (s.setAgenda es).engChan = s.engChan := rfl
@[simp] theorem setAgenda_engLen (s : State) (es : List Event) : (s.setAgenda es).engLen = s.engLen := rfl
@[simp] theorem setAgenda_engPos (s : State) (es : List Event) : (s.setAgenda es).engPos = s.engPos := rfl
@[simp] theorem setAgenda_line (s : State) (es : List Event) : (s.setAgenda es).line = s.line := rfl
@[simp] theorem setAgenda_statusOut (s : State) (es : List Event) : (s.setAgenda es).statusOut = s.statusOut := rfl
@[simp] theorem setAgenda_agenda (s : State) (es : List Event) : (s.setAgenda es).agenda = es := rfl
@[simp] theorem setAgenda_gaps (s : State) (es : List Event) : (s.setAgenda es).gaps = s.gaps := rfl

@[simp] theorem setGaps_alc (s : State) (gs : List (List AgentStep)) : (s.setGaps gs).alc = s.alc := rfl
@[simp] theorem setGaps_init (s : State) (gs : List (List AgentStep)) : (s.setGaps gs).init = s.init := rfl
@[simp] theorem setGaps_hnd (s : State) (gs : List (List AgentStep)) : (s.setGaps gs).hnd = s.hnd := rfl
@[simp] theorem setGaps_chn (s : State) (gs : List (List AgentStep)) : (s.setGaps gs).chn = s.chn := rfl
@[simp] theorem setGaps_fsm (s : State) (gs : List (List AgentStep)) : (s.setGaps gs).fsm = s.fsm := rfl
@[simp] theorem setGaps_buf (s : State) (gs : List (List AgentStep)) : (s.setGaps gs).buf = s.buf := rfl
@[simp] theorem setGaps_progress (s : State) (gs : List (List AgentStep)) : (s.setGaps gs).progress = s.progress := rfl
@[simp] theorem setGaps_engActive (s : State) (gs : List (List AgentStep)) : (s.setGaps gs).engActive = s.engActive := rfl
@[simp] theorem setGaps_engInst (s : State) (gs : List (List AgentStep)) : (s.setGaps gs).engInst = s.engInst := rfl
@[simp] theorem setGaps_engChan (s : State) (gs : List (List AgentStep)) : (s.setGaps gs).engChan = s.engChan := rfl
@[simp] theorem setGaps_engLen (s : State) (gs : List (List AgentStep)) : (s.setGaps gs).engLen = s.engLen := rfl
@[simp] theorem setGaps_engPos (s : State) (gs : List (List AgentStep)) : (s.setGaps gs).engPos = s.engPos := rfl
@[simp] theorem setGaps_line (s : State) (gs : List (List AgentStep)) : (s.setGaps gs).line = s.line := rfl
@[simp] theorem setGaps_statusOut (s : State) (gs : List (List AgentStep)) : (s.setGaps gs).statusOut = s.statusOut := rfl
@[simp] theorem setGaps_agenda (s : State) (gs : List (List AgentStep)) : (s.setGaps gs).agenda = s.agenda := rfl
@[simp] theorem setGaps_gaps (s : State) (gs : List (List AgentStep)) : (s.setGaps gs).gaps = gs := rfl

@[simp] theorem engStart_alc (s : State) (i : InstanceId) (ch : Chan) (n : Nat) : (s.engStart i ch n).alc = s.alc := rfl
@[simp] theorem engStart_init (s : State) (i : InstanceId) (ch : Chan) (n : Nat) : (s.engStart i ch n).init = s.init := rfl
@[simp] theorem engStart_hnd (s : State) (i : InstanceId) (ch : Chan) (n : Nat) : (s.engStart i ch n).hnd = s.hnd := rfl
@[simp] theorem engStart_chn (s : State) (i : InstanceId) (ch : Chan) (n : Nat) : (s.engStart i ch n).chn = s.chn := rfl
@[simp] theorem engStart_fsm (s : State) (i : InstanceId) (ch : Chan) (n : Nat) : (s.engStart i ch n).fsm = s.fsm := rfl
@[simp] theorem engStart_buf (s : State) (i : InstanceId) (ch : Chan) (n : Nat) : (s.engStart i ch n).buf = s.buf := rfl
@[simp] theorem engStart_progress (s : State) (i : InstanceId) (ch : Chan) (n : Nat) : (s.engStart i ch n).progress = s.progress := rfl
@[simp] theorem engStart_engActive (s : State) (i : InstanceId) (ch : Chan) (n : Nat) : (s.engStart i ch n).engActive = true := rfl
@[simp] theorem engStart_engInst (s : State) (i : InstanceId) (ch : Chan) (n : Nat) : (s.engStart i ch n).engInst = i := rfl
@[simp] theorem engStart_engChan (s : State) (i : InstanceId) (ch : Chan) (n : Nat) : (s.engStart i ch n).engChan = ch := rfl
@[simp] theorem engStart_engLen (s : State) (i : InstanceId) (ch : Chan) (n : Nat) : (s.engStart i ch n).engLen = n := rfl
@[simp] theorem engStart_engPos (s : State) (i : InstanceId) (ch : Chan) (n : Nat) : (s.engStart i ch n).engPos = 0 := rfl
@[simp] theorem engStart_line (s : State) (i : InstanceId) (ch : Chan) (n : Nat) : (s.engStart i ch n).line = s.line ++ [[]] := rfl
@[simp] theorem engStart_statusOut (s : State) (i : InstanceId) (ch : Chan) (n : Nat) : (s.engStart i ch n).statusOut = s.statusOut := rfl
@[simp] theorem engStart_agenda (s : State) (i : InstanceId) (ch : Chan) (n : Nat) : (s.engStart i ch n).agenda = s.agenda := rfl
@[simp] theorem engStart_gaps (s : State) (i : InstanceId) (ch : Chan) (n : Nat) : (s.engStart i ch n).gaps = s.gaps := rfl

@[simp] theorem engStop_alc (s : State) (i : InstanceId) (ch : Chan) : (s.engStop i ch).alc = s.alc := rfl
@[simp] theorem engStop_init (s : State) (i : InstanceId) (ch : Chan) : (s.engStop i ch).init = s.init := rfl
@[simp] theorem engStop_hnd (s : State) (i : InstanceId) (ch : Chan) : (s.engStop i ch).hnd = s.hnd := rfl
@[simp] theorem engStop_chn (s : State) (i : InstanceId) (ch : Chan) : (s.engStop i ch).chn = s.chn := rfl
@[simp] theorem engStop_fsm (s : State) (i : InstanceId) (ch : Chan) : (s.engStop i ch).fsm = s.fsm := rfl
@[simp] theorem engStop_buf (s : State) (i : InstanceId) (ch : Chan) : (s.engStop i ch).buf = s.buf := rfl
@[simp] theorem engStop_progress (s : State) (i : InstanceId) (ch : Chan) : (s.engStop i ch).progress = s.progress := rfl
@[simp] theorem engStop_engActive (s : State) (i : InstanceId) (ch : Chan) : (s.engStop i ch).engActive = false := rfl
@[simp] theorem engStop_engInst (s : State) (i : InstanceId) (ch : Chan) : (s.engStop i ch).engInst = s.engInst := rfl
@[simp] theorem engStop_engChan (s : State) (i : InstanceId) (ch : Chan) : (s.engStop i ch).engChan = s.engChan := rfl
@[simp] theorem engStop_engLen (s : State) (i : InstanceId) (ch : Chan) : (s.engStop i ch).engLen = s.engLen := rfl
@[simp] theorem engStop_engPos (s : State) (i : InstanceId) (ch : Chan) : (s.engStop i ch).engPos = s.engPos := rfl
@[simp] theorem engStop_line (s : State) (i : InstanceId) (ch : Chan) : (s.engStop i ch).line = s.line := rfl
@[simp] theorem engStop_statusOut (s : State) (i : InstanceId) (ch : Chan) : (s.engStop i ch).statusOut = s.statusOut := rfl
@[simp] theorem engStop_agenda (s : State) (i : InstanceId) (ch : Chan) : (s.engStop i ch).agenda = s.agenda := rfl
@[simp] theorem engStop_gaps (s : State) (i : InstanceId) (ch : Chan) : (s.engStop i ch).gaps = s.gaps := rfl

@[simp] theorem engRead_alc (s : State) : s.engRead.alc = s.alc := rfl
@[simp] theorem engRead_init (s : State) : s.engRead.init = s.init := rfl
@[simp] theorem engRead_hnd (s : State) : s.engRead.hnd = s.hnd := rfl
@[simp] theorem engRead_chn (s : State) : s.engRead.chn = s.chn := rfl
@[simp] theorem engRead_fsm (s : State) : s.engRead.fsm = s.fsm := rfl
@[simp] theorem engRead_buf (s : State) : s.engRead.buf = s.buf := rfl
@[simp] theorem engRead_progress (s : State) : s.engRead.progress = s.progress := rfl
@[simp] theorem engRead_engActive (s : State) : s.engRead.engActive = s.engActive := rfl
@[simp] theorem engRead_engInst (s : State) : s.engRead.engInst = s.engInst := rfl
@[simp] theorem engRead_engChan (s : State) : s.engRead.engChan = s.engChan := rfl
@[simp] theorem engRead_engLen (s : State) : s.engRead.engLen = s.engLen := rfl
@[simp] theorem engRead_engPos (s : State) : s.engRead.engPos = s.engPos + 1 := rfl
@[simp] theorem engRead_line (s : State) : s.engRead.line = appendToLast s.line (s.buf.read s.engPos) := rfl
@[simp] theorem engRead_statusOut (s : State) : s.engRead.statusOut = s.statusOut := rfl
@[simp] theorem engRead_agenda (s : State) : s.engRead.agenda = s.agenda := rfl
@[simp] theorem engRead_gaps (s : State) : s.engRead.gaps = s.gaps := rfl

end State
end Machine
end Sys2Proof
end

