-- ==== Sys2Proof/Laws/Ops.lean ====
section
/-! SUPPORT. What each shared operation of Machine/Ops.lean can do, said once: what the completion handler,
an agent's step, a boundary and a run of slot writes leave unchanged, and what the slot writes leave in the
buffer whatever the other agents do between them (spec/20_memory.md R58, spec/60_exceptions.md R191). -/

namespace Sys2Proof
namespace Machine

open Config (Params)

/-! ### The completion handler -/

/-- Everything the handler can do (R153, R155): ignore the notification, or stop the engine and go Idle. -/
theorem onTransferComplete_cases (cfg : Params) (id : InstanceId) (s : State) :
    (statusIgnored (completeStatus cfg id s) = true ∧
      s.onTransferComplete cfg id = s.drive (completeStatus cfg id s)) ∨
    (s.init = true ∧ id = cfg.instanceOf s.hnd ∧ s.fsm = .transmitting ∧
      s.onTransferComplete cfg id =
        ((s.engStop (cfg.instanceOf s.hnd) s.chn).setFsm .idle).drive .ok) := by
  unfold State.onTransferComplete completeStatus
  by_cases h1 : s.init = false
  · exact .inl (by simp [h1, statusIgnored])
  by_cases h2 : id ≠ cfg.instanceOf s.hnd
  · exact .inl (by simp [h1, h2, statusIgnored])
  by_cases h3 : s.fsm = .idle
  · exact .inl (by simp [h1, h2, h3, statusIgnored])
  · refine .inr ⟨by simpa using h1, by simpa using h2, ?_, by simp [h1, h2, h3]⟩
    cases h : s.fsm <;> simp_all

@[simp] theorem onTransferComplete_alc (cfg : Params) (id : InstanceId) (s : State) :
    (s.onTransferComplete cfg id).alc = s.alc := by
  rcases onTransferComplete_cases cfg id s with ⟨_, h⟩ | ⟨_, _, _, h⟩ <;> rw [h] <;> rfl

@[simp] theorem onTransferComplete_init (cfg : Params) (id : InstanceId) (s : State) :
    (s.onTransferComplete cfg id).init = s.init := by
  rcases onTransferComplete_cases cfg id s with ⟨_, h⟩ | ⟨_, _, _, h⟩ <;> rw [h] <;> rfl

@[simp] theorem onTransferComplete_hnd (cfg : Params) (id : InstanceId) (s : State) :
    (s.onTransferComplete cfg id).hnd = s.hnd := by
  rcases onTransferComplete_cases cfg id s with ⟨_, h⟩ | ⟨_, _, _, h⟩ <;> rw [h] <;> rfl

@[simp] theorem onTransferComplete_chn (cfg : Params) (id : InstanceId) (s : State) :
    (s.onTransferComplete cfg id).chn = s.chn := by
  rcases onTransferComplete_cases cfg id s with ⟨_, h⟩ | ⟨_, _, _, h⟩ <;> rw [h] <;> rfl

@[simp] theorem onTransferComplete_buf (cfg : Params) (id : InstanceId) (s : State) :
    (s.onTransferComplete cfg id).buf = s.buf := by
  rcases onTransferComplete_cases cfg id s with ⟨_, h⟩ | ⟨_, _, _, h⟩ <;> rw [h] <;> rfl

@[simp] theorem onTransferComplete_progress (cfg : Params) (id : InstanceId) (s : State) :
    (s.onTransferComplete cfg id).progress = s.progress := by
  rcases onTransferComplete_cases cfg id s with ⟨_, h⟩ | ⟨_, _, _, h⟩ <;> rw [h] <;> rfl

@[simp] theorem onTransferComplete_engInst (cfg : Params) (id : InstanceId) (s : State) :
    (s.onTransferComplete cfg id).engInst = s.engInst := by
  rcases onTransferComplete_cases cfg id s with ⟨_, h⟩ | ⟨_, _, _, h⟩ <;> rw [h] <;> rfl

@[simp] theorem onTransferComplete_engChan (cfg : Params) (id : InstanceId) (s : State) :
    (s.onTransferComplete cfg id).engChan = s.engChan := by
  rcases onTransferComplete_cases cfg id s with ⟨_, h⟩ | ⟨_, _, _, h⟩ <;> rw [h] <;> rfl

@[simp] theorem onTransferComplete_engLen (cfg : Params) (id : InstanceId) (s : State) :
    (s.onTransferComplete cfg id).engLen = s.engLen := by
  rcases onTransferComplete_cases cfg id s with ⟨_, h⟩ | ⟨_, _, _, h⟩ <;> rw [h] <;> rfl

@[simp] theorem onTransferComplete_engPos (cfg : Params) (id : InstanceId) (s : State) :
    (s.onTransferComplete cfg id).engPos = s.engPos := by
  rcases onTransferComplete_cases cfg id s with ⟨_, h⟩ | ⟨_, _, _, h⟩ <;> rw [h] <;> rfl

@[simp] theorem onTransferComplete_line (cfg : Params) (id : InstanceId) (s : State) :
    (s.onTransferComplete cfg id).line = s.line := by
  rcases onTransferComplete_cases cfg id s with ⟨_, h⟩ | ⟨_, _, _, h⟩ <;> rw [h] <;> rfl

@[simp] theorem onTransferComplete_agenda (cfg : Params) (id : InstanceId) (s : State) :
    (s.onTransferComplete cfg id).agenda = s.agenda := by
  rcases onTransferComplete_cases cfg id s with ⟨_, h⟩ | ⟨_, _, _, h⟩ <;> rw [h] <;> rfl

@[simp] theorem onTransferComplete_gaps (cfg : Params) (id : InstanceId) (s : State) :
    (s.onTransferComplete cfg id).gaps = s.gaps := by
  rcases onTransferComplete_cases cfg id s with ⟨_, h⟩ | ⟨_, _, _, h⟩ <;> rw [h] <;> rfl

/-- A word on the notification port is a completion that is handled, or is ignored (R89). -/
theorem takeNotification_cases (cfg : Params) (w : Word) (s : State) :
    (∃ id, decode .ntf w = .ok (.complete id) ∧
      s.takeNotification cfg w = s.onTransferComplete cfg id) ∨
    ((∀ id, decode .ntf w ≠ .ok (.complete id)) ∧ s.takeNotification cfg w = s.drive .ignBadOp) := by
  unfold State.takeNotification
  rcases h : decode .ntf w with e | i
  · exact .inr ⟨by simp, rfl⟩
  · cases i <;> first | exact .inl ⟨_, rfl, rfl⟩ | exact .inr ⟨by simp, rfl⟩

/-! ### A step of another agent, and a boundary -/

/-- When `EngRead` is enabled (R161). -/
theorem engReadEnabled_iff (s : State) :
    s.engReadEnabled = true ↔ s.engActive = true ∧ s.engPos < s.engLen := by
  simp [State.engReadEnabled]

/-- When `EngNotify` is enabled (R162). -/
theorem engNotifyEnabled_iff (s : State) :
    s.engNotifyEnabled = true ↔ s.engActive = true ∧ s.engPos = s.engLen := by
  simp [State.engNotifyEnabled]

/-- Everything a step of another agent can do (R7): change the status output only, handle a completion, or
read a slot into the line. -/
theorem agentStep_cases (cfg : Params) (s : State) (a : AgentStep) :
    s.agentStep cfg a = s ∨ s.agentStep cfg a = s.drive .ignBadOp ∨
    (∃ id, s.agentStep cfg a = s.onTransferComplete cfg id ∧
      (a = .engNotify ∧ id = s.engInst ∨ ∃ w, a = .ntfWord w ∧ decode .ntf w = .ok (.complete id))) ∨
    (a = .engRead ∧ s.engReadEnabled = true ∧ s.agentStep cfg a = s.engRead) := by
  cases a with
  | ntfWord w =>
    rcases takeNotification_cases cfg w s with ⟨id, hd, h⟩ | ⟨_, h⟩
    · exact .inr (.inr (.inl ⟨id, h, .inr ⟨w, rfl, hd⟩⟩))
    · exact .inr (.inl h)
  | engRead =>
    by_cases h : s.engReadEnabled = true
    · exact .inr (.inr (.inr ⟨rfl, h, by simp [State.agentStep, h]⟩))
    · exact .inl (by simp [State.agentStep, h])
  | engNotify =>
    by_cases h : s.engNotifyEnabled = true
    · exact .inr (.inr (.inl ⟨_, by simp [State.agentStep, h], .inl ⟨rfl, rfl⟩⟩))
    · exact .inl (by simp [State.agentStep, h])

@[simp] theorem agentStep_alc (cfg : Params) (s : State) (a : AgentStep) :
    (s.agentStep cfg a).alc = s.alc := by
  rcases agentStep_cases cfg s a with h | h | ⟨id, h, _⟩ | ⟨_, _, h⟩ <;> simp [h]

@[simp] theorem agentStep_init (cfg : Params) (s : State) (a : AgentStep) :
    (s.agentStep cfg a).init = s.init := by
  rcases agentStep_cases cfg s a with h | h | ⟨id, h, _⟩ | ⟨_, _, h⟩ <;> simp [h]

@[simp] theorem agentStep_hnd (cfg : Params) (s : State) (a : AgentStep) :
    (s.agentStep cfg a).hnd = s.hnd := by
  rcases agentStep_cases cfg s a with h | h | ⟨id, h, _⟩ | ⟨_, _, h⟩ <;> simp [h]

@[simp] theorem agentStep_chn (cfg : Params) (s : State) (a : AgentStep) :
    (s.agentStep cfg a).chn = s.chn := by
  rcases agentStep_cases cfg s a with h | h | ⟨id, h, _⟩ | ⟨_, _, h⟩ <;> simp [h]

@[simp] theorem agentStep_buf (cfg : Params) (s : State) (a : AgentStep) :
    (s.agentStep cfg a).buf = s.buf := by
  rcases agentStep_cases cfg s a with h | h | ⟨id, h, _⟩ | ⟨_, _, h⟩ <;> simp [h]

@[simp] theorem agentStep_progress (cfg : Params) (s : State) (a : AgentStep) :
    (s.agentStep cfg a).progress = s.progress := by
  rcases agentStep_cases cfg s a with h | h | ⟨id, h, _⟩ | ⟨_, _, h⟩ <;> simp [h]

@[simp] theorem agentStep_engInst (cfg : Params) (s : State) (a : AgentStep) :
    (s.agentStep cfg a).engInst = s.engInst := by
  rcases agentStep_cases cfg s a with h | h | ⟨id, h, _⟩ | ⟨_, _, h⟩ <;> simp [h]

@[simp] theorem agentStep_engChan (cfg : Params) (s : State) (a : AgentStep) :
    (s.agentStep cfg a).engChan = s.engChan := by
  rcases agentStep_cases cfg s a with h | h | ⟨id, h, _⟩ | ⟨_, _, h⟩ <;> simp [h]

@[simp] theorem agentStep_engLen (cfg : Params) (s : State) (a : AgentStep) :
    (s.agentStep cfg a).engLen = s.engLen := by
  rcases agentStep_cases cfg s a with h | h | ⟨id, h, _⟩ | ⟨_, _, h⟩ <;> simp [h]

@[simp] theorem agentStep_agenda (cfg : Params) (s : State) (a : AgentStep) :
    (s.agentStep cfg a).agenda = s.agenda := by
  rcases agentStep_cases cfg s a with h | h | ⟨id, h, _⟩ | ⟨_, _, h⟩ <;> simp [h]

@[simp] theorem agentStep_gaps (cfg : Params) (s : State) (a : AgentStep) :
    (s.agentStep cfg a).gaps = s.gaps := by
  rcases agentStep_cases cfg s a with h | h | ⟨id, h, _⟩ | ⟨_, _, h⟩ <;> simp [h]

/-- What every step of another agent keeps, a run of them keeps. -/
theorem foldl_agentStep_keeps (cfg : Params) (P : State → Prop)
    (hP : ∀ s a, P s → P (s.agentStep cfg a)) (as : List AgentStep) (s : State) (h : P s) :
    P (as.foldl (State.agentStep cfg) s) := by
  induction as generalizing s with
  | nil => exact h
  | cons a as ih => exact ih _ (hP s a h)

/-- What every step of another agent keeps, and what does not look at the schedule, a boundary keeps. -/
theorem takeGap_keeps (cfg : Params) (P : State → Prop)
    (hP : ∀ s a, P s → P (s.agentStep cfg a)) (hg : ∀ s gs, P s → P (s.setGaps gs))
    (s : State) (h : P s) : P (s.takeGap cfg) := by
  unfold State.takeGap
  split
  · exact h
  · exact foldl_agentStep_keeps cfg P hP _ _ (hg _ _ h)

@[simp] theorem takeGap_alc (cfg : Params) (s : State) : (s.takeGap cfg).alc = s.alc :=
  takeGap_keeps cfg (fun t => t.alc = s.alc) (fun _ _ h => by simpa using h) (fun _ _ h => h) s rfl

@[simp] theorem takeGap_init (cfg : Params) (s : State) : (s.takeGap cfg).init = s.init :=
  takeGap_keeps cfg (fun t => t.init = s.init) (fun _ _ h => by simpa using h) (fun _ _ h => h) s rfl

@[simp] theorem takeGap_hnd (cfg : Params) (s : State) : (s.takeGap cfg).hnd = s.hnd :=
  takeGap_keeps cfg (fun t => t.hnd = s.hnd) (fun _ _ h => by simpa using h) (fun _ _ h => h) s rfl

@[simp] theorem takeGap_chn (cfg : Params) (s : State) : (s.takeGap cfg).chn = s.chn :=
  takeGap_keeps cfg (fun t => t.chn = s.chn) (fun _ _ h => by simpa using h) (fun _ _ h => h) s rfl

@[simp] theorem takeGap_buf (cfg : Params) (s : State) : (s.takeGap cfg).buf = s.buf :=
  takeGap_keeps cfg (fun t => t.buf = s.buf) (fun _ _ h => by simpa using h) (fun _ _ h => h) s rfl

@[simp] theorem takeGap_progress (cfg : Params) (s : State) : (s.takeGap cfg).progress = s.progress :=
  takeGap_keeps cfg (fun t => t.progress = s.progress) (fun _ _ h => by simpa using h) (fun _ _ h => h) s rfl

@[simp] theorem takeGap_engInst (cfg : Params) (s : State) : (s.takeGap cfg).engInst = s.engInst :=
  takeGap_keeps cfg (fun t => t.engInst = s.engInst) (fun _ _ h => by simpa using h) (fun _ _ h => h) s rfl

@[simp] theorem takeGap_engChan (cfg : Params) (s : State) : (s.takeGap cfg).engChan = s.engChan :=
  takeGap_keeps cfg (fun t => t.engChan = s.engChan) (fun _ _ h => by simpa using h) (fun _ _ h => h) s rfl

@[simp] theorem takeGap_engLen (cfg : Params) (s : State) : (s.takeGap cfg).engLen = s.engLen :=
  takeGap_keeps cfg (fun t => t.engLen = s.engLen) (fun _ _ h => by simpa using h) (fun _ _ h => h) s rfl

@[simp] theorem takeGap_agenda (cfg : Params) (s : State) : (s.takeGap cfg).agenda = s.agenda :=
  takeGap_keeps cfg (fun t => t.agenda = s.agenda) (fun _ _ h => by simpa using h) (fun _ _ h => h) s rfl

/-- A boundary uses up one entry of the schedule. -/
@[simp] theorem takeGap_gaps (cfg : Params) (s : State) : (s.takeGap cfg).gaps = s.gaps.tail := by
  unfold State.takeGap
  split
  · simp_all
  · rename_i g gs h
    rw [h]
    exact foldl_agentStep_keeps cfg (fun t => t.gaps = gs) (fun _ _ h => by simpa using h) _ _ rfl

/-- With nothing scheduled for it, a boundary changes nothing. -/
theorem takeGap_of_gaps_nil (cfg : Params) (s : State) (h : s.gaps = []) : s.takeGap cfg = s := by
  unfold State.takeGap; rw [h]

/-- While the block is Idle and the engine inactive, the other agents change the status output only (R155). -/
theorem agentStep_of_idle (cfg : Params) (s : State) (a : AgentStep) (hf : s.fsm = .idle)
    (ha : s.engActive = false) : ∃ c, s.agentStep cfg a = { s with statusOut := c } := by
  rcases agentStep_cases cfg s a with h | h | ⟨id, h, _⟩ | ⟨_, h, _⟩
  · exact ⟨s.statusOut, h⟩
  · exact ⟨_, h⟩
  · rcases onTransferComplete_cases cfg id s with ⟨_, h'⟩ | ⟨_, _, h', _⟩
    · exact ⟨_, h.trans h'⟩
    · simp [hf] at h'
  · simp [State.engReadEnabled, ha] at h

theorem takeGap_of_idle (cfg : Params) (s : State) (hf : s.fsm = .idle) (ha : s.engActive = false) :
    ∃ c, s.takeGap cfg = { s with statusOut := c, gaps := s.gaps.tail } := by
  unfold State.takeGap
  split
  · rename_i h; exact ⟨s.statusOut, by cases s; simp_all⟩
  · rename_i g gs h
    rw [h]
    have := foldl_agentStep_keeps cfg
      (fun t => ∃ c, t = { s with statusOut := c, gaps := gs })
      (fun t a ht => by
        obtain ⟨c, rfl⟩ := ht
        obtain ⟨c', hc⟩ := agentStep_of_idle cfg { s with statusOut := c, gaps := gs } a hf ha
        exact ⟨c', hc⟩) g (s.setGaps gs) ⟨s.statusOut, rfl⟩
    simpa using this

/-! ### The slot writes of an operation -/

@[simp] theorem advance_alc (cfg : Params) (s : State) : (s.advance cfg).alc = s.alc := by
  unfold State.advance; split <;> rfl

@[simp] theorem advance_init (cfg : Params) (s : State) : (s.advance cfg).init = s.init := by
  unfold State.advance; split <;> rfl

@[simp] theorem advance_hnd (cfg : Params) (s : State) : (s.advance cfg).hnd = s.hnd := by
  unfold State.advance; split <;> rfl

@[simp] theorem advance_chn (cfg : Params) (s : State) : (s.advance cfg).chn = s.chn := by
  unfold State.advance; split <;> rfl

@[simp] theorem advance_fsm (cfg : Params) (s : State) : (s.advance cfg).fsm = s.fsm := by
  unfold State.advance; split <;> rfl

@[simp] theorem advance_engActive (cfg : Params) (s : State) : (s.advance cfg).engActive = s.engActive := by
  unfold State.advance; split <;> rfl

@[simp] theorem advance_engInst (cfg : Params) (s : State) : (s.advance cfg).engInst = s.engInst := by
  unfold State.advance; split <;> rfl

@[simp] theorem advance_engChan (cfg : Params) (s : State) : (s.advance cfg).engChan = s.engChan := by
  unfold State.advance; split <;> rfl

@[simp] theorem advance_engLen (cfg : Params) (s : State) : (s.advance cfg).engLen = s.engLen := by
  unfold State.advance; split <;> rfl

@[simp] theorem advance_engPos (cfg : Params) (s : State) : (s.advance cfg).engPos = s.engPos := by
  unfold State.advance; split <;> rfl

@[simp] theorem advance_line (cfg : Params) (s : State) : (s.advance cfg).line = s.line := by
  unfold State.advance; split <;> rfl

@[simp] theorem advance_statusOut (cfg : Params) (s : State) : (s.advance cfg).statusOut = s.statusOut := by
  unfold State.advance; split <;> rfl

@[simp] theorem advance_agenda (cfg : Params) (s : State) : (s.advance cfg).agenda = s.agenda := by
  unfold State.advance; split <;> rfl

@[simp] theorem advance_gaps (cfg : Params) (s : State) : (s.advance cfg).gaps = s.gaps := by
  unfold State.advance; split <;> rfl

/-- What every step of another agent, a use of the schedule and a slot write keep, a run of slot writes
keeps. -/
theorem runWrites_keeps (cfg : Params) (P : State → Prop)
    (hP : ∀ s a, P s → P (s.agentStep cfg a)) (hg : ∀ s gs, P s → P (s.setGaps gs))
    (hw : ∀ s, P s → P (s.advance cfg)) (n : Nat) (s : State) (h : P s) :
    P (s.runWrites cfg n) := by
  induction n generalizing s with
  | zero => exact h
  | succ n ih => exact ih _ (hw _ (takeGap_keeps cfg P hP hg s h))

@[simp] theorem runWrites_alc (cfg : Params) (n : Nat) (s : State) :
    (s.runWrites cfg n).alc = s.alc :=
  runWrites_keeps cfg (fun t => t.alc = s.alc) (fun _ _ h => by simpa using h) (fun _ _ h => h)
    (fun _ h => by simpa using h) n s rfl

@[simp] theorem runWrites_init (cfg : Params) (n : Nat) (s : State) :
    (s.runWrites cfg n).init = s.init :=
  runWrites_keeps cfg (fun t => t.init = s.init) (fun _ _ h => by simpa using h) (fun _ _ h => h)
    (fun _ h => by simpa using h) n s rfl

@[simp] theorem runWrites_hnd (cfg : Params) (n : Nat) (s : State) :
    (s.runWrites cfg n).hnd = s.hnd :=
  runWrites_keeps cfg (fun t => t.hnd = s.hnd) (fun _ _ h => by simpa using h) (fun _ _ h => h)
    (fun _ h => by simpa using h) n s rfl

@[simp] theorem runWrites_chn (cfg : Params) (n : Nat) (s : State) :
    (s.runWrites cfg n).chn = s.chn :=
  runWrites_keeps cfg (fun t => t.chn = s.chn) (fun _ _ h => by simpa using h) (fun _ _ h => h)
    (fun _ h => by simpa using h) n s rfl

@[simp] theorem runWrites_engInst (cfg : Params) (n : Nat) (s : State) :
    (s.runWrites cfg n).engInst = s.engInst :=
  runWrites_keeps cfg (fun t => t.engInst = s.engInst) (fun _ _ h => by simpa using h) (fun _ _ h => h)
    (fun _ h => by simpa using h) n s rfl

@[simp] theorem runWrites_engChan (cfg : Params) (n : Nat) (s : State) :
    (s.runWrites cfg n).engChan = s.engChan :=
  runWrites_keeps cfg (fun t => t.engChan = s.engChan) (fun _ _ h => by simpa using h) (fun _ _ h => h)
    (fun _ h => by simpa using h) n s rfl

@[simp] theorem runWrites_engLen (cfg : Params) (n : Nat) (s : State) :
    (s.runWrites cfg n).engLen = s.engLen :=
  runWrites_keeps cfg (fun t => t.engLen = s.engLen) (fun _ _ h => by simpa using h) (fun _ _ h => h)
    (fun _ h => by simpa using h) n s rfl

@[simp] theorem runWrites_agenda (cfg : Params) (n : Nat) (s : State) :
    (s.runWrites cfg n).agenda = s.agenda :=
  runWrites_keeps cfg (fun t => t.agenda = s.agenda) (fun _ _ h => by simpa using h) (fun _ _ h => h)
    (fun _ h => by simpa using h) n s rfl

@[simp] theorem perform_alc (cfg : Params) (p : Progress) (n : Nat) (s : State) :
    (s.perform cfg p n).alc = s.alc := by simp [State.perform]

@[simp] theorem perform_init (cfg : Params) (p : Progress) (n : Nat) (s : State) :
    (s.perform cfg p n).init = s.init := by simp [State.perform]

@[simp] theorem perform_hnd (cfg : Params) (p : Progress) (n : Nat) (s : State) :
    (s.perform cfg p n).hnd = s.hnd := by simp [State.perform]

@[simp] theorem perform_chn (cfg : Params) (p : Progress) (n : Nat) (s : State) :
    (s.perform cfg p n).chn = s.chn := by simp [State.perform]

@[simp] theorem perform_engInst (cfg : Params) (p : Progress) (n : Nat) (s : State) :
    (s.perform cfg p n).engInst = s.engInst := by simp [State.perform]

@[simp] theorem perform_engChan (cfg : Params) (p : Progress) (n : Nat) (s : State) :
    (s.perform cfg p n).engChan = s.engChan := by simp [State.perform]

@[simp] theorem perform_engLen (cfg : Params) (p : Progress) (n : Nat) (s : State) :
    (s.perform cfg p n).engLen = s.engLen := by simp [State.perform]

@[simp] theorem perform_agenda (cfg : Params) (p : Progress) (n : Nat) (s : State) :
    (s.perform cfg p n).agenda = s.agenda := by simp [State.perform]

@[simp] theorem zeroTail_alc (cfg : Params) (s : State) : (s.zeroTail cfg).alc = s.alc := by
  simp [State.zeroTail]

@[simp] theorem zeroTail_init (cfg : Params) (s : State) : (s.zeroTail cfg).init = s.init := by
  simp [State.zeroTail]

@[simp] theorem zeroTail_hnd (cfg : Params) (s : State) : (s.zeroTail cfg).hnd = s.hnd := by
  simp [State.zeroTail]

@[simp] theorem zeroTail_chn (cfg : Params) (s : State) : (s.zeroTail cfg).chn = s.chn := by
  simp [State.zeroTail]

@[simp] theorem zeroTail_engInst (cfg : Params) (s : State) : (s.zeroTail cfg).engInst = s.engInst := by
  simp [State.zeroTail]

@[simp] theorem zeroTail_engChan (cfg : Params) (s : State) : (s.zeroTail cfg).engChan = s.engChan := by
  simp [State.zeroTail]

@[simp] theorem zeroTail_engLen (cfg : Params) (s : State) : (s.zeroTail cfg).engLen = s.engLen := by
  simp [State.zeroTail]

@[simp] theorem zeroTail_agenda (cfg : Params) (s : State) : (s.zeroTail cfg).agenda = s.agenda := by
  simp [State.zeroTail]

/-- The counters are put away after the operation (R33). -/
@[simp] theorem perform_progress (cfg : Params) (p : Progress) (n : Nat) (s : State) :
    (s.perform cfg p n).progress = .none := rfl

@[simp] theorem zeroTail_progress (cfg : Params) (s : State) : (s.zeroTail cfg).progress = .none := rfl

/-- `n` slot writes use up `n` entries of the schedule. -/
@[simp] theorem runWrites_gaps (cfg : Params) (n : Nat) (s : State) :
    (s.runWrites cfg n).gaps = s.gaps.drop n := by
  induction n generalizing s with
  | zero => rfl
  | succ n ih => rw [State.runWrites, ih]; simp

@[simp] theorem perform_gaps (cfg : Params) (p : Progress) (n : Nat) (s : State) :
    (s.perform cfg p n).gaps = s.gaps.drop n := by simp [State.perform]

/-- Slot writes keep the one form of the buffer. -/
theorem runWrites_buf_wf (cfg : Params) (n : Nat) (s : State) (h : s.buf.wf = true) :
    (s.runWrites cfg n).buf.wf = true :=
  runWrites_keeps cfg (fun t => t.buf.wf = true) (fun _ _ h => by simpa using h) (fun _ _ h => h)
    (fun t h => by
      unfold State.advance
      split
      · exact h
      · exact Memory.write_wf _ _ _ h
      · exact Memory.write_wf _ _ _ h) n s h

theorem perform_buf_wf (cfg : Params) (p : Progress) (n : Nat) (s : State) (h : s.buf.wf = true) :
    (s.perform cfg p n).buf.wf = true := runWrites_buf_wf cfg n (s.setProgress p) h

/-- The slot writes of SetLed and FillAll: from slot `24 * i + k` on, `n` slots hold the 24 values of the
colour, group after group, and no other slot changes, whatever the other agents do meanwhile. -/
theorem runWrites_led_read (cfg : Params) (n i k stop : Nat) (out : List Slot) (s : State)
    (hp : n = 0 ∨ s.progress = .led i k stop out) (hk : k < 24) (hi : n = 0 ∨ i < stop)
    (hn : n + (24 * i + k) ≤ 24 * stop ∨ n = 0) (hw : s.buf.wf = true) (x : Nat) :
    (s.runWrites cfg n).buf.read x =
      if 24 * i + k ≤ x ∧ x < 24 * i + k + n then out.getD (x % 24) 0 else s.buf.read x := by
  induction n generalizing i k s with
  | zero => rw [if_neg (by omega)]; rfl
  | succ n ih =>
    have hp' : (s.takeGap cfg).progress = .led i k stop out := by
      simpa using hp.resolve_left (by omega)
    have hi' := hi.resolve_left (by omega)
    have hn' := hn.resolve_right (by omega)
    have hadv : (s.takeGap cfg).advance cfg = ((s.takeGap cfg).memWrite (ledSlot i k)
        (out.getD k 0)).setProgress ((Progress.led i k stop out).next cfg) := by
      unfold State.advance; rw [hp']
    have hbuf : ((s.takeGap cfg).advance cfg).buf = s.buf.write (24 * i + k) (out.getD k 0) := by
      rw [hadv]; simp [ledSlot]
    have hprog : ((s.takeGap cfg).advance cfg).progress = (Progress.led i k stop out).next cfg := by
      rw [hadv]; rfl
    have hwf : ((s.takeGap cfg).advance cfg).buf.wf = true := by
      rw [hbuf]; exact Memory.write_wf _ _ _ hw
    rw [State.runWrites]
    have hread := Memory.read_write s.buf (24 * i + k) (out.getD k 0) x hw
    have hmod : x = 24 * i + k → x % 24 = k := by omega
    have fin : ∀ p, p = 24 * i + k + 1 →
        (if p ≤ x ∧ x < p + n then out.getD (x % 24) 0
          else (s.buf.write (24 * i + k) (out.getD k 0)).read x) =
        if 24 * i + k ≤ x ∧ x < 24 * i + k + (n + 1) then out.getD (x % 24) 0 else s.buf.read x := by
      intro p hp
      rw [hread]
      by_cases hx : x = 24 * i + k
      · rw [if_neg (by omega), if_pos hx, if_pos (by omega), hmod hx]
      · rw [if_neg hx]
        by_cases hx' : p ≤ x ∧ x < p + n
        · rw [if_pos hx', if_pos (by omega)]
        · rw [if_neg hx', if_neg (by omega)]
    by_cases hk1 : k + 1 < 24
    · rw [ih i (k + 1) _ (.inr (by rw [hprog]; simp [Progress.next, hk1])) hk1 (.inr hi') (by omega) hwf,
        hbuf]
      exact fin (24 * i + (k + 1)) (by omega)
    · by_cases hs : i + 1 < stop
      · rw [ih (i + 1) 0 _ (.inr (by rw [hprog]; simp [Progress.next, hk1, hs])) (by omega) (.inr hs)
          (by omega) hwf, hbuf]
        exact fin (24 * (i + 1) + 0) (by omega)
      · have hn0 : n = 0 := by omega
        rw [ih (i + 1) 0 _ (.inl hn0) (by omega) (.inl hn0) (.inr hn0) hwf, hbuf]
        exact fin (24 * (i + 1) + 0) (by omega)

/-- The slot writes of PrepareResetTail: from slot `a` on, `n` slots hold 0, and no other slot changes. -/
theorem runWrites_tail_read (cfg : Params) (n a : Nat) (s : State)
    (hp : n = 0 ∨ s.progress = .tail a) (hn : n = 0 ∨ a + n ≤ cfg.bufLen) (hw : s.buf.wf = true) (x : Nat) :
    (s.runWrites cfg n).buf.read x = if a ≤ x ∧ x < a + n then 0 else s.buf.read x := by
  induction n generalizing a s with
  | zero => rw [if_neg (by omega)]; rfl
  | succ n ih =>
    have hp' : (s.takeGap cfg).progress = .tail a := by simpa using hp.resolve_left (by omega)
    have hn' := hn.resolve_left (by omega)
    have hadv : (s.takeGap cfg).advance cfg =
        ((s.takeGap cfg).memWrite a 0).setProgress ((Progress.tail a).next cfg) := by
      unfold State.advance; rw [hp']
    have hbuf : ((s.takeGap cfg).advance cfg).buf = s.buf.write a 0 := by rw [hadv]; simp
    have hprog : ((s.takeGap cfg).advance cfg).progress = (Progress.tail a).next cfg := by rw [hadv]; rfl
    have hwf : ((s.takeGap cfg).advance cfg).buf.wf = true := by
      rw [hbuf]; exact Memory.write_wf _ _ _ hw
    rw [State.runWrites, ih (a + 1) _ _ (by omega) hwf, hbuf, Memory.read_write _ _ _ _ hw]
    · by_cases hx : x = a
      · rw [if_neg (by omega), if_pos hx, if_pos (by omega)]
      · rw [if_neg hx]
        by_cases hx' : a + 1 ≤ x ∧ x < a + 1 + n
        · rw [if_pos hx', if_pos (by omega)]
        · rw [if_neg hx', if_neg (by omega)]
    · by_cases h : a + 1 < cfg.bufLen
      · exact .inr (by rw [hprog]; simp [Progress.next, h])
      · exact .inl (by omega)

/-- What a slot reads as after the slot writes of SetLed on LED `i` (R132, R51). -/
theorem perform_led_read (cfg : Params) (i : Nat) (out : List Slot) (s : State) (hw : s.buf.wf = true)
    (x : Nat) : (s.perform cfg (.led i 0 (i + 1) out) 24).buf.read x =
      if 24 * i ≤ x ∧ x < 24 * i + 24 then out.getD (x % 24) 0 else s.buf.read x :=
  runWrites_led_read cfg 24 i 0 (i + 1) out (s.setProgress (.led i 0 (i + 1) out)) (.inr rfl) (by omega)
    (.inr (by omega)) (by omega) hw x

/-- What a slot reads as after the slot writes of FillAll on LEDs 0 to `n - 1` (R135). -/
theorem perform_fill_read (cfg : Params) (n : Nat) (out : List Slot) (s : State) (hw : s.buf.wf = true)
    (x : Nat) : (s.perform cfg (.led 0 0 n out) (24 * n)).buf.read x =
      if x < 24 * n then out.getD (x % 24) 0 else s.buf.read x := by
  have := runWrites_led_read cfg (24 * n) 0 0 n out (s.setProgress (.led 0 0 n out)) (.inr rfl) (by omega)
    (by omega) (by omega) hw x
  simpa [State.perform] using this

/-- What a slot reads as after the slot writes of PrepareResetTail (R138). -/
theorem zeroTail_read (cfg : Params) (s : State) (hw : s.buf.wf = true) (x : Nat) :
    (s.zeroTail cfg).buf.read x =
      if s.alc * 24 ≤ x ∧ x < cfg.bufLen then 0 else s.buf.read x := by
  have := runWrites_tail_read cfg (tailCount cfg s.alc) (tailStart s.alc)
    (s.setProgress (.tail (tailStart s.alc))) (.inr rfl)
    (by unfold tailCount tailStart; omega) hw x
  refine Eq.trans this ?_
  have hs : tailStart s.alc = s.alc * 24 := rfl
  have hc : tailCount cfg s.alc = cfg.bufLen - s.alc * 24 := rfl
  by_cases h : s.alc * 24 ≤ x ∧ x < cfg.bufLen
  · rw [if_pos h, if_pos (by omega)]
  · rw [if_neg h, if_neg (by omega)]; rfl

/-! ### The line -/

theorem appendToLast_concat (l : List (List Slot)) (r : List Slot) (v : Slot) :
    appendToLast (l ++ [r]) v = l ++ [r ++ [v]] := by
  induction l with
  | nil => rfl
  | cons q l ih =>
    cases l with
    | nil => rfl
    | cons q' l => simpa [appendToLast] using ih

/-- A read of the engine adds to the line and takes nothing from it. -/
theorem appendToLast_eq_nil (l : List (List Slot)) (v : Slot) : appendToLast l v = [] ↔ l = [] := by
  cases l with
  | nil => simp [appendToLast]
  | cons q l => cases l <;> simp [appendToLast]

/-- Steps of the other agents never bring the engine into a fault it was not in (R42). -/
theorem agentStep_engineFault (cfg : Params) (s : State) (a : AgentStep)
    (h : s.engineFault cfg = none) : (s.agentStep cfg a).engineFault cfg = none := by
  rcases agentStep_cases cfg s a with h' | h' | ⟨id, h', _⟩ | ⟨_, _, h'⟩ <;> rw [h']
  · exact h
  · exact h
  · rcases onTransferComplete_cases cfg id s with ⟨_, h''⟩ | ⟨_, _, _, h''⟩ <;> rw [h'']
    · exact h
    · simp [State.engineFault]
  · simpa [State.engineFault, appendToLast_eq_nil] using h

theorem advance_engineFault (cfg : Params) (s : State) :
    (s.advance cfg).engineFault cfg = s.engineFault cfg := by simp [State.engineFault]

theorem perform_engineFault (cfg : Params) (p : Progress) (n : Nat) (s : State)
    (h : s.engineFault cfg = none) : (s.perform cfg p n).engineFault cfg = none :=
  runWrites_keeps cfg (fun t => t.engineFault cfg = none) (fun t a => agentStep_engineFault cfg t a)
    (fun _ _ h => h) (fun t h => by rw [advance_engineFault]; exact h) n (s.setProgress p) h

end Machine
end Sys2Proof
end

