-- ==== Sys2Proof/Laws/Agents.lean ====
section
/-! SUPPORT. The agent steps that a step of the machine takes (Machine/Agents.lean) are those of the schedule and
those the machine performs, and what a step can do while Transmitting under `APP_DISCIPLINE`
(spec/42_transmission.md R166). -/

namespace Sys2Proof
namespace Machine

open Config (Params)

@[simp] theorem agentsTaken_snd (cfg : Params) (as : List AgentStep) (s : State) :
    (agentsTaken cfg as s).map Prod.snd = as := by
  induction as generalizing s with
  | nil => rfl
  | cons a as ih => simp [agentsTaken, ih]

/-- What is taken at a boundary is the first list of the schedule. -/
theorem boundaryTaken_snd (cfg : Params) (s : State) :
    (boundaryTaken cfg s).map Prod.snd = (s.gaps.take 1).flatten := by
  unfold boundaryTaken
  split <;> simp [*]

/-- What is taken during `n` slot writes is the first `n` lists of the schedule, in order. -/
theorem writesTaken_snd (cfg : Params) (n : Nat) (s : State) :
    (writesTaken cfg n s).map Prod.snd = (s.gaps.take n).flatten := by
  induction n generalizing s with
  | zero => simp [writesTaken]
  | succ n ih =>
    rw [writesTaken, List.map_append, ih, boundaryTaken_snd]
    simp only [advance_gaps, takeGap_gaps]
    cases s.gaps <;> simp

/-- With nothing scheduled inside operations nothing is taken inside them. -/
theorem writesTaken_of_gaps_nil (cfg : Params) (n : Nat) (s : State) (h : s.gaps = []) :
    writesTaken cfg n s = [] := by
  have := writesTaken_snd cfg n s
  simpa [h] using this

theorem tailTaken_of_gaps_nil (cfg : Params) (s : State) (h : s.gaps = []) : tailTaken cfg s = [] :=
  writesTaken_of_gaps_nil cfg _ _ h

theorem boundaryTaken_of_gaps_nil (cfg : Params) (s : State) (h : s.gaps = []) :
    boundaryTaken cfg s = [] := by
  unfold boundaryTaken; rw [h]

/-- A read the engine takes: `EngRead` where it is enabled. -/
def isRead (p : Taken) : Bool := decide (p.2 = .engRead) && p.1.engReadEnabled

/-- The engine's position moves on by one for each read that is taken, and by nothing else. -/
theorem agentsTaken_engPos (cfg : Params) (as : List AgentStep) (s : State) :
    (as.foldl (State.agentStep cfg) s).engPos = s.engPos + ((agentsTaken cfg as s).filter isRead).length := by
  induction as generalizing s with
  | nil => rfl
  | cons a as ih =>
    rw [List.foldl_cons, ih, agentsTaken, List.filter_cons]
    cases a with
    | ntfWord w =>
      have : (s.agentStep cfg (.ntfWord w)).engPos = s.engPos := by
        rcases agentStep_cases cfg s (.ntfWord w) with h | h | ⟨id, h, _⟩ | ⟨h, _⟩
        · rw [h]
        · rw [h]; rfl
        · rw [h]; simp
        · cases h
      simp [isRead, this]
    | engRead =>
      by_cases he : s.engReadEnabled = true
      · simp [isRead, he, State.agentStep]; omega
      · simp [isRead, he, State.agentStep]
    | engNotify =>
      have : (s.agentStep cfg .engNotify).engPos = s.engPos := by
        simp only [State.agentStep]; split <;> simp
      simp [isRead, this]

theorem boundaryTaken_engPos (cfg : Params) (s : State) :
    (s.takeGap cfg).engPos = s.engPos + ((boundaryTaken cfg s).filter isRead).length := by
  unfold State.takeGap boundaryTaken
  cases s.gaps with
  | nil => rfl
  | cons g gs => exact agentsTaken_engPos cfg g (s.setGaps gs)

theorem writesTaken_engPos (cfg : Params) (n : Nat) (s : State) :
    (s.runWrites cfg n).engPos = s.engPos + ((writesTaken cfg n s).filter isRead).length := by
  induction n generalizing s with
  | zero => rfl
  | succ n ih =>
    rw [State.runWrites, ih, writesTaken, List.filter_append, List.length_append, advance_engPos,
      boundaryTaken_engPos]
    omega

/-- Everything a step can do while Transmitting if the application keeps its discipline (R155, R166 (e)), with
what it takes: pass over an event that changes nothing but the status output, read a slot, or handle a
notification. -/
theorem disciplined_step_cases (s t : State) (hd : AppDiscipline s) (hi : s.init = true)
    (hf : s.fsm = .transmitting) (hs : step s = .next t) :
    (∃ c, t = { s with agenda := s.agenda.tail, statusOut := c } ∧ ∀ x a, (x, a) ∈ stepTaken Config.params s →
      (a = .engRead → x.engReadEnabled = false) ∧ (a = .engNotify → x.engNotifyEnabled = false)) ∨
    (∃ es, stepTaken Config.params s = [(s.setAgenda es, .engRead)] ∧ s.engReadEnabled = true ∧
      t = (s.setAgenda es).engRead) ∨
    (∃ es a id, stepTaken Config.params s = [(s.setAgenda es, a)] ∧
      t = (s.setAgenda es).onTransferComplete Config.params id ∧
      (a = .engNotify ∧ s.engNotifyEnabled = true ∧ id = s.engInst ∨
        ∃ w, a = .ntfWord w ∧ decode .ntf w = .ok (.complete id))) := by
  rcases hag : s.agenda with _ | ⟨e, es⟩
  · simp only [step, hag] at hs
    cases hs
    refine .inl ⟨s.statusOut, ?_, by simp [stepTaken, hag]⟩
    cases s; simp_all
  rcases e with w | a
  · simp only [step, hag, deliver] at hs
    simp only [stepTaken, hag]
    rcases hw : decode .cmd w with r | i
    · simp only [hw] at hs
      cases hs
      exact .inl ⟨_, rfl, by simp⟩
    · have hsh := hd hf w i (by rw [hag]; rfl) hw
      subst hsh
      simp only [hw] at hs
      have hex : exec .showStrip (s.setAgenda es) = .next ((s.setAgenda es).drive .ignBusy) := by
        simp [exec, execShow, showOp, hi, hf]
      rw [hex] at hs
      cases hs
      refine .inl ⟨_, rfl, ?_⟩
      simp [execTaken, statusOf, showStatus, hi, hf, statusIgnored]
  · have htk : stepTaken Config.params s = [(s.setAgenda es, a)] := by simp [stepTaken, hag]
    simp only [step, hag] at hs
    rw [htk]
    cases a with
    | ntfWord w =>
      simp only [agentEvent, deliver] at hs
      rcases hw : decode .ntf w with r | i
      · simp only [hw] at hs
        cases hs
        exact .inl ⟨_, rfl, by simp⟩
      · simp only [hw] at hs
        have hp := (decode_ok .ntf w i hw).2
        cases i with
        | complete id =>
          cases hs
          exact .inr (.inr ⟨es, _, _, rfl, rfl, .inr ⟨w, rfl, hw⟩⟩)
        | _ => cases hp
    | engRead =>
      simp only [agentEvent, engReadOp] at hs
      split at hs
      · rename_i he
        split at hs <;> cases hs
        exact .inr (.inl ⟨es, rfl, he, rfl⟩)
      · rename_i he
        cases hs
        refine .inl ⟨s.statusOut, rfl, ?_⟩
        intro x a hx
        simp at hx
        obtain ⟨rfl, rfl⟩ := hx
        exact ⟨fun _ => by simpa using he, fun h => nomatch h⟩
    | engNotify =>
      simp only [agentEvent] at hs
      split at hs
      · rename_i he
        cases hs
        exact .inr (.inr ⟨es, _, _, rfl, rfl, .inl ⟨rfl, he, rfl⟩⟩)
      · rename_i he
        cases hs
        refine .inl ⟨s.statusOut, rfl, ?_⟩
        intro x a hx
        simp at hx
        obtain ⟨rfl, rfl⟩ := hx
        exact ⟨fun h => (nomatch h), fun _ => by simpa using he⟩

end Machine
end Sys2Proof
end

