-- ==== Sys2Proof/Laws/Config.lean ====
section
/-! SUPPORT. All that is known of the configuration: it is well formed (spec/00_scope.md R11). -/

namespace Sys2Proof
namespace Config

theorem scenario_wellFormed : scenario.WellFormed := by decide

/-- R11: the machine's configuration is well formed. -/
theorem params_wellFormed : params.WellFormed := by
  unfold params
  split
  · assumption
  · exact scenario_wellFormed

theorem params_one_le_capacity : 1 ≤ params.capacity := params_wellFormed.1.1

theorem params_capacity_le : params.capacity ≤ 65535 := params_wellFormed.1.2

theorem params_one_le_resetSlotCount : 1 ≤ params.resetSlotCount := params_wellFormed.2.1

theorem params_zeroDuty_ne_zero : params.bitZeroDuty ≠ 0 := params_wellFormed.2.2.2.2.1.1

theorem params_oneDuty_ne_zero : params.bitOneDuty ≠ 0 := params_wellFormed.2.2.2.2.2.1.1

theorem params_duties_differ : params.bitOneDuty ≠ params.bitZeroDuty := params_wellFormed.2.2.2.2.2.2

end Config
end Sys2Proof
end

