-- ==== Sys2Proof/Laws/Encoder.lean ====
section
/-! SUPPORT. The small lemmas of the Encoder (spec/40_encoder.md). -/

namespace Sys2Proof
namespace Machine

open Config (Params)

theorem scale_lt (c br : Nat) : scale c br < 256 := Nat.mod_lt _ (by omega)

@[simp] theorem channelSlots_length (cfg : Params) (v : Nat) : (channelSlots cfg v).length = 8 := by
  simp [channelSlots]

/-- R113: 24 slot values. -/
@[simp] theorem encode24_length (cfg : Params) (r g b br : Byte) : (encode24 cfg r g b br).length = 24 := by
  simp [encode24]

theorem bitToDuty_mem (cfg : Params) (bit : Bool) :
    bitToDuty cfg bit = cfg.bitZeroDuty ∨ bitToDuty cfg bit = cfg.bitOneDuty := by cases bit <;> simp [bitToDuty]

/-- R112, R113: every element is one of the two duty values. -/
theorem encode24_mem (cfg : Params) (r g b br : Byte) (v : Slot) (h : v ∈ encode24 cfg r g b br) :
    v = cfg.bitZeroDuty ∨ v = cfg.bitOneDuty := by
  simp only [encode24, channelSlots, List.mem_append, List.mem_map] at h
  rcases h with (⟨k, _, rfl⟩ | ⟨k, _, rfl⟩) | ⟨k, _, rfl⟩ <;> exact bitToDuty_mem cfg _

theorem encode24_getD_mem (cfg : Params) (r g b br : Byte) (k : Nat) (hk : k < 24) :
    (encode24 cfg r g b br).getD k 0 = cfg.bitZeroDuty ∨
      (encode24 cfg r g b br).getD k 0 = cfg.bitOneDuty := by
  apply encode24_mem cfg r g b br
  rw [List.getD_eq_getElem _ _ (by simpa using hk)]
  exact List.getElem_mem _

end Machine
end Sys2Proof
end

