-- ==== Sys2Proof/Laws/PerInstr.lean ====
section
/-! SUPPORT. Facts about every operation as syntax, one lemma per constructor. Family OpcodeBits: bits 63:60
of an operation's word are its opcode, whatever its operands (spec/30_encoding.md R81, R87). -/

namespace Sys2Proof
namespace Laws
namespace OpcodeBits

/-- The word's opcode field holds the opcode of R87. -/
def Statement (i : Instr) : Prop := opcodeOf (encode i) = i.opcode

theorem init (h : Handle) (ch : Chan) (n : Nat) : Statement (.init h ch n) := by
  apply BitVec.eq_of_getLsbD_eq
  intro k hk
  rcases k with _ | _ | _ | _ | k <;> first
    | omega
    | simp [opcodeOf, encode, place, Instr.opcode]

theorem setled (i : Nat) (r g b br : Byte) : Statement (.setled i r g b br) := by
  apply BitVec.eq_of_getLsbD_eq
  intro k hk
  rcases k with _ | _ | _ | _ | k <;> first
    | omega
    | simp [opcodeOf, encode, place, Instr.opcode]

theorem fillall (r g b br : Byte) : Statement (.fillall r g b br) := by
  apply BitVec.eq_of_getLsbD_eq
  intro k hk
  rcases k with _ | _ | _ | _ | k <;> first
    | omega
    | simp [opcodeOf, encode, place, Instr.opcode]

theorem prep : Statement .prep := by unfold Statement; decide

theorem showStrip : Statement .showStrip := by unfold Statement; decide

theorem complete (id : InstanceId) : Statement (.complete id) := by
  apply BitVec.eq_of_getLsbD_eq
  intro k hk
  rcases k with _ | _ | _ | _ | k <;> first
    | omega
    | simp [opcodeOf, encode, place, Instr.opcode]

end OpcodeBits
end Laws
end Sys2Proof
end

