-- ==== Sys2Proof/Laws/Step.lean ====
section
/-! SUPPORT. Runs: how steps of the machine follow one another, and what many reads of an active engine leave
of the fields that decide whether it can go on (spec/42_transmission.md R161). -/

namespace Sys2Proof
namespace Machine

/-- A run is its first part and then the rest. -/
theorem runSteps_add (m n : Nat) (s t : State) (h : runSteps m s = .next t) :
    runSteps (m + n) s = runSteps n t := by
  induction m generalizing s with
  | zero => cases h; simp
  | succ m ih =>
    rw [Nat.succ_add]
    simp only [runSteps] at h ⊢
    split at h
    · exact ih _ h
    · cases h
    · cases h

/-- One read of an active engine whose window lies in the buffer and which has a record. -/
theorem step_engRead (s : State) (es : List Event) (hag : s.agenda = .agent .engRead :: es)
    (ha : s.engActive = true) (hp : s.engPos < s.engLen) (hf : s.engineFault Config.params = none) :
    step s = .next (s.setAgenda es).engRead := by
  have hen : (s.setAgenda es).engReadEnabled = true := (engReadEnabled_iff _).2 ⟨ha, hp⟩
  have hf' : (s.setAgenda es).engineFault Config.params = none := hf
  unfold step
  rw [hag]
  simp only [agentEvent, engReadOp, hen, hf', if_true]

/-- A read keeps the engine out of the faults it was not in. -/
theorem engRead_engineFault (cfg : Config.Params) (s : State) (h : s.engineFault cfg = none) :
    s.engRead.engineFault cfg = none := by
  simpa [State.engineFault, appendToLast_eq_nil] using h

/-- `n` reads of an active engine are `n` steps that go on: where they leave the engine, and that they leave
the registers. -/
theorem runSteps_engRead (n : Nat) (s : State) (es : List Event)
    (hag : s.agenda = agentsOnly (List.replicate n .engRead) ++ es) (ha : s.engActive = true)
    (hp : s.engPos + n ≤ s.engLen) (hf : s.engineFault Config.params = none) :
    ∃ t, runSteps n s = .next t ∧ t.agenda = es ∧ t.engPos = s.engPos + n ∧ t.engActive = true ∧
      t.engLen = s.engLen ∧ t.engInst = s.engInst ∧ t.fsm = s.fsm ∧ t.init = s.init ∧ t.hnd = s.hnd := by
  induction n generalizing s with
  | zero => exact ⟨s, rfl, by simpa [agentsOnly] using hag, rfl, ha, rfl, rfl, rfl, rfl, rfl⟩
  | succ n ih =>
    have hag' : s.agenda = .agent .engRead :: (agentsOnly (List.replicate n .engRead) ++ es) := by
      simpa [agentsOnly, List.replicate_succ] using hag
    have h1 := step_engRead s _ hag' ha (by omega) hf
    obtain ⟨t, h2, h3, h4, h5⟩ := ih ((s.setAgenda (agentsOnly (List.replicate n .engRead) ++ es)).engRead)
      rfl ha (by show s.engPos + 1 + n ≤ s.engLen; omega) (engRead_engineFault _ _ hf)
    refine ⟨t, by simp only [runSteps, h1, h2], h3, ?_, h5⟩
    rw [h4]
    show s.engPos + 1 + n = _
    omega

end Machine
end Sys2Proof
end

