-- ==== Sys2Proof/Tests/Slice0.lean ====
section
/-! SUPPORT. Tests and witnesses. The expected values of the tests are the spec's own vectors
(spec/95_test_vectors.md, spec/30_encoding.md section 7), for its scenario configuration and its illustrative
duty values 30 (`Z`) and 60 (`O`). The witnesses show that the hypotheses of each statement of
Certificates/Slice0/Obligations.lean are met by some state and operands. -/

namespace Sys2Proof
namespace Machine
namespace Tests

open Config (params scenario)

/-! ### Words (spec/30_encoding.md section 7, spec/95_test_vectors.md section 2.1) -/

theorem test_decode_init : decode .cmd 0x1000070005020000#64 = .ok (.init 7#16 2#8 5) := by decide
theorem test_decode_init_largest :
    decode .cmd 0x10FFFFFFFFFF0000#64 = .ok (.init 0xFFFF#16 0xFF#8 65535) := by decide
theorem test_decode_setled :
    decode .cmd 0x2000011234566400#64 = .ok (.setled 1 0x12#8 0x34#8 0x56#8 100#8) := by decide
theorem test_decode_setled_reserved_bits :
    decode .cmd 0x2F00020A141E00FF#64 = .ok (.setled 2 10#8 20#8 30#8 0#8) := by decide
theorem test_decode_fillall :
    decode .cmd 0x300000FF80013200#64 = .ok (.fillall 255#8 128#8 1#8 50#8) := by decide
theorem test_decode_prep : decode .cmd 0x4000000000000000#64 = .ok .prep := by decide
theorem test_decode_show : decode .cmd 0x5ABCDEF012345678#64 = .ok .showStrip := by decide
theorem test_decode_complete : decode .ntf 0x60FFFF0000000000#64 = .ok (.complete 0xFFFF#16) := by decide
theorem test_decode_reserved :
    decode .cmd 0x7000000000000000#64 = .error .reservedOpcode ∧
    decode .cmd 0xF123456789ABCDEF#64 = .error .reservedOpcode ∧
    decode .ntf 0#64 = .error .reservedOpcode := by decide
theorem test_decode_wrong_port :
    decode .cmd 0x6000010000000000#64 = .error .wrongPort ∧
    decode .ntf 0x5000000000000000#64 = .error .wrongPort := by decide
theorem test_encode_setled : encode (.setled 65535 1#8 1#8 1#8 1#8) = 0x20FFFF0101010100#64 := by decide
theorem test_encode_init : encode (.init 1#16 1#8 2) = 0x1000010002010000#64 := by decide
theorem test_table_rows :
    (decodeTableWord 64 0x1000000000000000).map Instr.mnemonic = some "INIT" ∧
    (decodeTableWord 64 0x2000000000000000).map Instr.mnemonic = some "SETLED" ∧
    (decodeTableWord 64 0x3000000000000000).map Instr.mnemonic = some "FILLALL" ∧
    (decodeTableWord 64 0x4000000000000000).map Instr.mnemonic = some "PREP" ∧
    (decodeTableWord 64 0x5000000000000000).map Instr.mnemonic = some "SHOW" ∧
    (decodeTableWord 64 0x6000000000000000).map Instr.mnemonic = some "COMPLETE" := by decide
/-- R94: `SETLED 1, 18, 52, 86, 100`. -/
theorem test_text : (Instr.setled 1 0x12#8 0x34#8 0x56#8 100#8).text = "SETLED 1, 18, 52, 86, 100" := by
  decide

/-! ### Ill-formed terms and configurations are refused -/

theorem test_wellFormed_init : (Instr.init 1#16 1#8 65535).wellFormed = true := by decide
theorem test_wellFormed_init_refuses : (Instr.init 1#16 1#8 65536).wellFormed = false := by decide
theorem test_wellFormed_setled : (Instr.setled 65535 0#8 0#8 0#8 0#8).wellFormed = true := by decide
theorem test_wellFormed_setled_refuses : (Instr.setled 65536 0#8 0#8 0#8 0#8).wellFormed = false := by decide

theorem test_config_refuses_no_led : ¬ { scenario with capacity := 0 }.WellFormed := by decide
theorem test_config_refuses_capacity : ¬ { scenario with capacity := 65536 }.WellFormed := by decide
theorem test_config_refuses_no_reset_slot : ¬ { scenario with resetSlotCount := 0 }.WellFormed := by decide
theorem test_config_refuses_slot_width : ¬ { scenario with slotW := 12, dmaW := 12 }.WellFormed := by decide
theorem test_config_refuses_dma_width : ¬ { scenario with dmaW := 32 }.WellFormed := by decide
theorem test_config_refuses_zero_duty : ¬ { scenario with bitZeroDuty := 0 }.WellFormed := by decide
theorem test_config_refuses_wide_zero_duty : ¬ { scenario with bitZeroDuty := 65536 }.WellFormed := by decide
theorem test_config_refuses_one_duty : ¬ { scenario with bitOneDuty := 0 }.WellFormed := by decide
theorem test_config_refuses_wide_one_duty : ¬ { scenario with bitOneDuty := 65536 }.WellFormed := by decide
theorem test_config_refuses_equal_duties : ¬ { scenario with bitOneDuty := 30 }.WellFormed := by decide

/-! ### The Encoder (spec/95_test_vectors.md sections 2.2 and 2.3) -/

theorem test_scale :
    [scale 255 100, scale 255 50, scale 199 50, scale 255 99, scale 255 1, scale 99 1, scale 3 34] =
      [255, 127, 99, 252, 2, 0, 1] := by decide
theorem test_scale_above_contract :
    [scale 100 101, scale 255 101, scale 255 200, scale 128 200, scale 255 255] =
      [101, 1, 254, 0, 138] := by decide
/-- `ZZOOZOZZ ZZZOZZOZ ZOZOZOOZ`: green first, most significant bit first. -/
theorem test_encode24 : encode24 scenario 0x12#8 0x34#8 0x56#8 100#8 =
    [30, 30, 60, 60, 30, 60, 30, 30, 30, 30, 30, 60, 30, 30, 60, 30,
     30, 60, 30, 60, 30, 60, 60, 30] := by decide
/-- Scaled green, red, blue of (200, 100, 50) at 25 are 25, 50, 12. -/
theorem test_read_led : readLed scenario (encode24 scenario 200#8 100#8 50#8 25#8) = some (25, 50, 12) := by
  decide

/-! ### The operations, each once (spec/95_test_vectors.md sections 2.4 to 2.9) -/

/-- The next state of an answer. -/
def after (a : Answer) : State :=
  match a with
  | .next t => t
  | .fault _ => State.reset
  | .refused _ => State.reset

/-- `n` LEDs, bound to handle 1 and channel 1, nothing set: after `Init(1, 1, n)` with `n` in the capacity. -/
def bound (n : Nat) : State := { State.reset with init := true, hnd := 1, chn := 1, alc := n }

/-- The slots `a` to `a + n - 1` of a state's buffer. -/
def slots (s : State) (a n : Nat) : List Slot := (List.range' a n).map s.buf.read

theorem test_init_clamps :
    (after (initOp scenario 1#16 1#8 4 State.reset)).alc = 3 ∧
    (after (initOp scenario 1#16 1#8 4 State.reset)).statusOut = some .okClamped := by decide
theorem test_init_rebinds : after (initOp scenario 9#16 4#8 1 (bound 2)) =
    { bound 1 with hnd := 9, chn := 4, statusOut := some .ok } := by decide
/-- `SetLed(2, 0, 0, 255, 100)` with three LEDs: slots 48 to 71 are `Z×16 O×8`, the others unchanged. -/
theorem test_setled_last : slots (after (setLedOp scenario 2 0#8 0#8 255#8 100#8 (bound 3))) 46 28 =
    [0, 0] ++ List.replicate 16 30 ++ List.replicate 8 60 ++ [0, 0] := by decide
theorem test_setled_out_of_range : after (setLedOp scenario 2 1#8 2#8 3#8 100#8 (bound 2)) =
    { bound 2 with statusOut := some .ignRange } := by decide
/-- `FillAll(255, 128, 1, 50)` with two LEDs: two copies of `ZOZZZZZZ ZOOOOOOO ZZZZZZZZ`. -/
theorem test_fillall_two : slots (after (fillAllOp scenario 255#8 128#8 1#8 50#8 (bound 2))) 24 25 =
    [30, 60, 30, 30, 30, 30, 30, 30, 30, 60, 60, 60, 60, 60, 60, 60] ++ List.replicate 8 30 ++ [0] := by
  decide +kernel
theorem test_fillall_none : after (fillAllOp scenario 1#8 2#8 3#8 100#8 (bound 0)) =
    { bound 0 with statusOut := some .ok } := by decide
/-- With one active LED, slots 24 to 77 are zeroed and slots below 24 are not. -/
theorem test_prep_tail : (after (prepOp scenario { bound 1 with buf := [(23, 60), (24, 60), (71, 30)] })).buf =
    [(23, 60)] := by decide +kernel
theorem test_show_starts : after (showOp scenario (bound 2)) = { bound 2 with
    fsm := .transmitting, engActive := true, engInst := 1, engChan := 1, engLen := 54, line := [[]],
    statusOut := some .ok } := by decide
theorem test_show_busy : after (showOp scenario { bound 2 with fsm := .transmitting, engActive := true }) =
    { bound 2 with fsm := .transmitting, engActive := true, statusOut := some .ignBusy } := by decide
theorem test_complete_stops :
    after (completeOp scenario 1#16 { bound 2 with fsm := .transmitting, engActive := true, engLen := 54 }) =
      { bound 2 with engLen := 54, statusOut := some .ok } := by decide
theorem test_complete_other_instance :
    after (completeOp scenario 2#16 { bound 2 with fsm := .transmitting, engActive := true }) =
      { bound 2 with fsm := .transmitting, engActive := true, statusOut := some .ignInstance } := by decide
/-- The engine reads slot 12 after a SetLed has written it: P4 of spec/95_test_vectors.md, steps 4 to 6. -/
theorem test_engine_reads_current_value :
    (after (engReadOp scenario { bound 1 with
      fsm := .transmitting, engActive := true, engLen := 30, engPos := 12, buf := [(12, 30)],
      line := [[30, 60]] })).line = [[30, 60, 30]] := by decide
/-- A notification inside a SetLed stops the transfer there and leaves the operation's writes alone. -/
theorem test_notification_inside_setled :
    (after (setLedOp scenario 0 0#8 255#8 0#8 100#8 { bound 1 with
      fsm := .transmitting, engActive := true, engInst := 1, engLen := 30, line := [[]],
      gaps := [[.engRead], [.ntfWord 0x6000010000000000#64], [.engRead]] })) =
    { bound 1 with
      engInst := 1, engLen := 30, engPos := 1, line := [[0]], statusOut := some .ok
      buf := (after (setLedOp scenario 0 0#8 255#8 0#8 100#8 (bound 1))).buf } := by decide
/-- The numbers of R182's table, in its order. -/
theorem test_status_numbers :
    [Status.ok, .ignUninit, .ignRange, .ignBusy, .ignInstance, .ignIdle, .okClamped, .ignBadOp].map statusCode =
      [0#3, 1#3, 2#3, 3#3, 4#3, 5#3, 6#3, 7#3] := by decide
/-- Nothing listed is 0 and slot numbers rise: what the form of a buffer refuses. -/
theorem test_memory_form_refuses :
    Memory.wf [(1, 0)] = false ∧ Memory.wf [(2, 30), (1, 30)] = false ∧
    Memory.wf [(1, 30), (1, 60)] = false := by decide

/-! ### Witnesses: states the hypotheses of the statements hold in

`bound n` is Idle with `n` LEDs; `sending n` is the same after a Show, nothing read yet. Both are taken at the
ends of their range, `n = 0` and `n = CAPACITY`, of the machine's own configuration. -/

/-- A transfer of `n` LEDs in flight, `p` slots read. -/
def sending (n p : Nat) : State := { bound n with
  fsm := .transmitting
  engActive := true
  engInst := params.instanceOf 1
  engChan := 1
  engLen := n * 24 + params.resetSlotCount
  engPos := p
  line := [List.replicate p 0] }

theorem bound_activeFault (n : Nat) (h : n ≤ params.capacity) : (bound n).activeFault params = none := by
  simp [State.activeFault, State.engineFault, bound, h, State.reset]

theorem sending_engineFault (n p : Nat) (h : n ≤ params.capacity) :
    (sending n p).engineFault params = none := by
  have : n * 24 + params.resetSlotCount ≤ params.bufLen := by
    have := Nat.mul_le_mul_right 24 h
    unfold Config.Params.bufLen; omega
  simp [State.engineFault, sending, this]

theorem sending_activeFault (n p : Nat) (h : n ≤ params.capacity) :
    (sending n p).activeFault params = none := by
  have := sending_engineFault n p h
  simp only [State.activeFault, this]
  simp [sending, bound, h]

theorem bound_inv (n : Nat) (h : n ≤ params.capacity) : Inv params (bound n) where
  bufForm := rfl
  bufInside := by intro c hc; cases hc
  bufValues := by intro c hc; cases hc
  alcBound := h
  uninit := by intro hi; cases hi
  fsmEngine := by constructor <;> intro hf <;> cases hf
  fsmInit := by intro hf; cases hf
  window := by intro hf; cases hf
  record := by intro hf; cases hf
  noProgress := rfl

theorem sending_inv (n p : Nat) (h : n ≤ params.capacity) (hp : p ≤ n * 24 + params.resetSlotCount) :
    Inv params (sending n p) where
  bufForm := rfl
  bufInside := by intro c hc; cases hc
  bufValues := by intro c hc; cases hc
  alcBound := h
  uninit := by intro hi; cases hi
  fsmEngine := ⟨fun _ => rfl, fun _ => rfl⟩
  fsmInit := fun _ => rfl
  window := fun _ => ⟨n, h, rfl, hp⟩
  record := fun _ => ⟨List.replicate p 0, rfl, by simp [sending]⟩
  noProgress := rfl

/-- A Show of `bound n` answers `sending n`: the buffer is empty and nothing else happens inside it. -/
theorem runWrites_tail_empty (n a : Nat) (s : State) (hg : s.gaps = []) (hb : s.buf = [])
    (hp : s.progress = .none ∨ s.progress = .tail a) :
    ∃ p, s.runWrites params n = s.setProgress p := by
  induction n generalizing a s with
  | zero => exact ⟨s.progress, rfl⟩
  | succ n ih =>
    rw [State.runWrites, takeGap_of_gaps_nil params s hg]
    rcases hp with hp | hp
    · have : s.advance params = s := by unfold State.advance; rw [hp]
      rw [this]
      exact ih a s hg hb (.inl hp)
    · have hadv : s.advance params = s.setProgress ((Progress.tail a).next params) := by
        unfold State.advance; rw [hp]
        simp [State.memWrite, State.setProgress, hb, Memory.write]
      rw [hadv]
      have hnext : (Progress.tail a).next params = .none ∨
          (Progress.tail a).next params = .tail (a + 1) := by
        simp only [Progress.next]; split <;> simp
      obtain ⟨p, h⟩ := ih (a + 1) (s.setProgress ((Progress.tail a).next params)) hg hb hnext
      exact ⟨p, by rw [h]; rfl⟩

theorem show_bound (n : Nat) (h : n ≤ params.capacity) (es : List Event) :
    exec .showStrip { bound n with agenda := es } =
      .next { sending n 0 with agenda := es, statusOut := some .ok } := by
  have hf : ({ bound n with agenda := es } : State).activeFault params = none := bound_activeFault n h
  obtain ⟨p, hp⟩ := runWrites_tail_empty (tailCount params n) (tailStart n)
    (({ bound n with agenda := es } : State).setProgress (.tail (tailStart n))) rfl rfl (.inr rfl)
  have hz : ({ bound n with agenda := es } : State).zeroTail params = { bound n with agenda := es } := by
    show (State.runWrites params (tailCount params n)
      (({ bound n with agenda := es } : State).setProgress (.tail (tailStart n)))).setProgress .none = _
    rw [hp]; rfl
  simp only [exec, execShow, showOp, hf, hz]
  rfl

/-! Words and encodings. -/

theorem witness_DecodeOfEncode : (Instr.init 0xFFFF#16 0xFF#8 65535).wellFormed = true ∧
    (Instr.setled 65535 255#8 255#8 255#8 255#8).wellFormed = true ∧
    (Instr.fillall 0#8 0#8 0#8 0#8).wellFormed = true ∧ Instr.prep.wellFormed = true ∧
    Instr.showStrip.wellFormed = true ∧ (Instr.complete 0xFFFF#16).wellFormed = true := by decide

theorem witness_EncodeOfDecode :
    decode .cmd 0x2F00020A141E00FF#64 = .ok (.setled 2 10#8 20#8 30#8 0#8) := by decide

theorem witness_ReservedBitsIgnored :
    decode .cmd 0x2F00020A141E00FF#64 = .ok (.setled 2 10#8 20#8 30#8 0#8) ∧
    0x2000020A141E0000#64 &&& (Instr.setled 2 10#8 20#8 30#8 0#8).format.used =
      0x2F00020A141E00FF#64 &&& (Instr.setled 2 10#8 20#8 30#8 0#8).format.used := by decide

theorem witness_ReservedAndWrongPortIgnored : opcodeOf 0#64 = 0x0#4 ∧
    0x7#4 ≤ opcodeOf 0x7000000000000000#64 ∧ 0x7#4 ≤ opcodeOf 0xF123456789ABCDEF#64 ∧
    opcodeOf 0x6000010000000000#64 = 0x6#4 ∧ opcodeOf 0x5000000000000000#64 ≠ 0x6#4 ∧
    opcodeOf 0x1000010002010000#64 ≠ 0x6#4 := by decide

/-! Steps and configurations. -/

theorem witness_StepRunsDecodedWord :
    ({ bound 1 with agenda := [.cmdWord 0x5000000000000000#64] }).agenda =
      [.cmdWord 0x5000000000000000#64] ∧ decode .cmd 0x5000000000000000#64 = .ok .showStrip ∧
    ({ bound 1 with agenda := [.agent (.ntfWord 0x6000010000000000#64)] }).agenda =
      [.agent (.ntfWord 0x6000010000000000#64)] ∧
    decode .ntf 0x6000010000000000#64 = .ok (.complete 1#16) ∧
    decode .cmd 0#64 = .error .reservedOpcode ∧
    decode .ntf 0x5000000000000000#64 = .error .wrongPort := by decide

theorem witness_StepRunsEngine :
    ({ sending 0 0 with agenda := [.agent .engRead] }).engineFault params = none ∧
    (sending 0 0).engActive = true ∧ (sending 0 0).engPos < (sending 0 0).engLen ∧
    (sending params.capacity (params.capacity * 24 + params.resetSlotCount)).engPos =
      (sending params.capacity (params.capacity * 24 + params.resetSlotCount)).engLen ∧
    ({ bound 0 with agenda := [.agent .engRead] }).engineFault params = none := by
  have := Config.params_one_le_resetSlotCount
  exact ⟨sending_engineFault 0 0 (by omega), rfl, by simp [sending]; omega, rfl, rfl⟩

theorem witness_IllFormedConfigurationRefused :
    scenario.WellFormed ∧ ¬ { scenario with dmaW := 32 }.WellFormed := by decide

theorem witness_ScaleTruncates : (255 ≤ 255 ∧ 100 ≤ 100) ∧ (254 ≤ 255 ∧ 255 ≤ 255) ∧ (99 ≤ 100) := by decide

theorem witness_ScaleAboveContract : 255 ≤ 255 ∧ 101 ≤ 255 := by decide

theorem witness_BitDutyValues : scenario.WellFormed := by decide

theorem witness_EncodeOrderGreenRedBlue : 0 < 8 ∧ 7 < 8 ∧ scenario.WellFormed := by decide

theorem witness_EncodeReadsBack : { scenario with slotW := 8, dmaW := 8 }.WellFormed := by decide

theorem witness_SlotBytesReadBack :
    { scenario with slotW := 32, dmaW := 32, byteOrder := .big }.WellFormed ∧
    scenario.WellFormed ∧ 65535 < 2 ^ scenario.slotW := by decide

/-! Operations. -/

theorem witness_SetLedWritesItsGroup :
    (bound params.capacity).init = true ∧ params.capacity - 1 < (bound params.capacity).alc ∧
    (bound params.capacity).activeFault params = none ∧ (bound params.capacity).buf.wf = true := by
  have := Config.params_one_le_capacity
  exact ⟨rfl, by simp [bound]; omega, bound_activeFault _ (Nat.le_refl _), rfl⟩

/-- The hypotheses hold while a transfer is in flight too. -/
theorem witness_SetLedWritesItsGroup_transmitting :
    (sending params.capacity 0).init = true ∧ 0 < (sending params.capacity 0).alc ∧
    (sending params.capacity 0).activeFault params = none ∧ (sending params.capacity 0).buf.wf = true := by
  have := Config.params_one_le_capacity
  exact ⟨rfl, by simp [sending, bound]; omega, sending_activeFault _ _ (Nat.le_refl _), rfl⟩

theorem witness_FillAllWritesActiveGroups :
    ((bound 0).init = true ∧ (bound 0).activeFault params = none ∧ (bound 0).buf.wf = true) ∧
    ((sending params.capacity 0).init = true ∧ (sending params.capacity 0).activeFault params = none ∧
      (sending params.capacity 0).buf.wf = true) :=
  ⟨⟨rfl, bound_activeFault 0 (Nat.zero_le _), rfl⟩, ⟨rfl, sending_activeFault _ _ (Nat.le_refl _), rfl⟩⟩

theorem witness_PrepZeroesTail :
    (State.reset.engineFault params = none ∧ State.reset.buf.wf = true) ∧
    ((sending params.capacity 0).engineFault params = none ∧ (sending params.capacity 0).buf.wf = true) :=
  ⟨⟨rfl, rfl⟩, ⟨sending_engineFault _ _ (Nat.le_refl _), rfl⟩⟩

theorem witness_ShowStartsTransfer :
    (bound params.capacity).init = true ∧ (bound params.capacity).fsm = .idle ∧
    (bound params.capacity).engActive = false ∧ (bound params.capacity).alc ≤ params.capacity ∧
    (bound params.capacity).buf.wf = true ∧ (bound 0).alc ≤ params.capacity :=
  ⟨rfl, rfl, rfl, Nat.le_refl _, rfl, Nat.zero_le _⟩

theorem witness_ShowWhileTransmittingIgnored :
    (sending 0 0).init = true ∧ (sending 0 0).fsm = .transmitting := ⟨rfl, rfl⟩

theorem witness_CompleteStopsTransfer :
    (sending 0 0).init = true ∧ (sending 0 0).fsm = .transmitting := ⟨rfl, rfl⟩

theorem witness_IgnoredOperationChangesNothing :
    statusIgnored (statusOf params (.setled 0 0#8 0#8 0#8 0#8) State.reset) = true ∧
    statusIgnored (statusOf params (.setled 1 0#8 0#8 0#8 0#8) (bound 1)) = true ∧
    statusIgnored (statusOf params (.fillall 0#8 0#8 0#8 0#8) State.reset) = true ∧
    statusIgnored (statusOf params .showStrip State.reset) = true ∧
    statusIgnored (statusOf params .showStrip (sending 0 0)) = true ∧
    statusIgnored (statusOf params (.complete 1#16) State.reset) = true := ⟨rfl, rfl, rfl, rfl, rfl, rfl⟩

theorem witness_StatusIsFunctionOfStateBefore :
    exec .showStrip (bound 0) = .next { sending 0 0 with agenda := [], statusOut := some .ok } :=
  show_bound 0 (Nat.zero_le _) []

theorem witness_StatusPriority :
    (State.reset.init = false ∧ State.reset.alc ≤ 0) ∧
    ({ State.reset with fsm := .transmitting }.init = false ∧
      { State.reset with fsm := .transmitting }.fsm = .transmitting) ∧
    ((bound 0).init = true ∧ params.instanceOf 1 + 1 ≠ params.instanceOf (bound 0).hnd ∧
      (bound 0).fsm = .idle) ∧
    ((bound 0).init = true ∧ params.instanceOf 1 = params.instanceOf (bound 0).hnd ∧
      (bound 0).fsm = .idle) ∧
    decode .cmd 0#64 = .error .reservedOpcode :=
  ⟨⟨rfl, Nat.le_refl _⟩, ⟨rfl, rfl⟩, ⟨rfl, by simp [bound], rfl⟩, ⟨rfl, rfl, rfl⟩, rfl⟩

/-- Both stops of the model's guards, in states no run reaches. -/
theorem witness_OperationsStopOnlyOutsideInvariant :
    exec (.fillall 0#8 0#8 0#8 0#8) (bound (params.capacity + 1)) = .fault .slotOutsideBuffer ∧
    exec .prep { sending 0 0 with line := [] } = .fault .noTransferRecord := by
  have h : params.resetSlotCount ≤ params.bufLen := by unfold Config.Params.bufLen; omega
  constructor
  · simp [exec, execFillAll, fillAllOp, State.activeFault, bound]
  · simp [exec, execPrep, prepOp, State.engineFault, sending, h]

theorem witness_ColourIndependentOfIndex :
    (bound params.capacity).init = true ∧ 0 < (bound params.capacity).alc ∧
    params.capacity - 1 < (bound params.capacity).alc ∧ (bound params.capacity).buf.wf = true ∧
    (∃ t, exec (.setled 0 1#8 2#8 3#8 100#8) (bound params.capacity) = .next t) ∧
    ∃ u, exec (.setled (params.capacity - 1) 1#8 2#8 3#8 100#8) (bound params.capacity) = .next u := by
  have hc := Config.params_one_le_capacity
  have h := bound_activeFault params.capacity (Nat.le_refl _)
  have ha : (bound params.capacity).alc = params.capacity := rfl
  have hi : (bound params.capacity).init = true := rfl
  refine ⟨rfl, by omega, by omega, rfl, ?_, ?_⟩ <;>
    simp only [exec, execSetLed, setLedOp, h, hi, ha] <;>
    rw [if_neg (by simp), if_neg (by omega)] <;> exact ⟨_, rfl⟩

theorem witness_FillAllIsSetLedSequence :
    (bound params.capacity).init = true ∧ (bound params.capacity).activeFault params = none ∧
    (bound params.capacity).progress = .none := ⟨rfl, bound_activeFault _ (Nat.le_refl _), rfl⟩

theorem witness_InterleavingLeavesOperationAlone :
    (∃ t, exec .prep (sending 0 0) = .next t) ∧
    ∃ u, exec .prep { sending 0 0 with gaps := [[.engRead, .engNotify], [.ntfWord 0#64]] } = .next u := by
  have h := sending_engineFault 0 0 (Nat.zero_le _)
  have h' : ({ sending 0 0 with gaps := [[.engRead, .engNotify], [.ntfWord 0#64]] } : State).engineFault
    params = none := h
  simp only [exec, execPrep, prepOp, h, h']
  exact ⟨⟨_, rfl⟩, ⟨_, rfl⟩⟩

/-- A transfer in flight, with two reads before the first slot write of the next operation, one before the
second, and the engine's notification before the third. -/
def racing : State := (sending params.capacity 0).setGaps [[.engRead, .engRead], [.engRead], [.engNotify]]

theorem witness_RacingReadsSeeOldOrNewValue :
    (racing.fsm = .transmitting ∧ racing.engActive = true ∧ racing.buf.wf = true ∧ racing.line = [] ++ [[]]) ∧
    (∃ t, exec (.setled (params.capacity - 1) 1#8 2#8 3#8 100#8) racing = .next t) ∧
    (∃ t, exec (.fillall 1#8 2#8 3#8 100#8) racing = .next t) ∧ ∃ t, exec .prep racing = .next t := by
  have hc := Config.params_one_le_capacity
  have h : racing.activeFault params = none := sending_activeFault params.capacity 0 (Nat.le_refl _)
  have h' : racing.engineFault params = none := sending_engineFault params.capacity 0 (Nat.le_refl _)
  have hi : racing.init = true := rfl
  have ha : racing.alc = params.capacity := rfl
  refine ⟨⟨rfl, rfl, rfl, rfl⟩, ?_, ?_, ?_⟩
  · simp only [exec, execSetLed, setLedOp, h, hi, ha]
    rw [if_neg (by simp), if_neg (by omega)]
    exact ⟨_, rfl⟩
  · simp only [exec, execFillAll, fillAllOp, h, hi]
    exact ⟨_, rfl⟩
  · simp only [exec, execPrep, prepOp, h']
    exact ⟨_, rfl⟩

/-! The state machine and the engine. -/

theorem witness_StateMachineTable :
    (exec .showStrip (bound 0) = .next { sending 0 0 with agenda := [], statusOut := some .ok } ∧
      (bound 0).gaps = [] ∧ (bound 0).fsm = .idle) ∧
    (exec .showStrip (sending 0 0) = .next { sending 0 0 with statusOut := some .ignBusy } ∧
      (sending 0 0).gaps = [] ∧ (sending 0 0).fsm = .transmitting) :=
  ⟨⟨show_bound 0 (Nat.zero_le _) [], rfl, rfl⟩, ⟨rfl, rfl, rfl⟩⟩

/-- A Show from Idle, as a step. -/
theorem step_show_bound (n : Nat) (h : n ≤ params.capacity) (es : List Event) :
    step { bound n with agenda := .cmdWord 0x5000000000000000#64 :: es } =
      .next { sending n 0 with agenda := es, statusOut := some .ok } := by
  have hd : decode .cmd 0x5000000000000000#64 = .ok .showStrip := by decide
  simp only [step, deliver, hd]
  exact show_bound n h es

theorem witness_OnlyShowStartsTransmitting :
    step { bound 0 with agenda := [.cmdWord 0x5000000000000000#64] } =
      .next { sending 0 0 with agenda := [], statusOut := some .ok } ∧
    (bound 0).fsm = .idle ∧ (sending 0 0).fsm = .transmitting :=
  ⟨step_show_bound 0 (Nat.zero_le _) [], rfl, rfl⟩

theorem witness_StaysTransmittingUntilMatch :
    step { sending 0 0 with agenda := [.cmdWord 0x5000000000000000#64] } =
      .next { sending 0 0 with statusOut := some .ignBusy } ∧
    (sending 0 0).fsm = .transmitting ∧
    (∀ e ∈ [Event.cmdWord 0x5000000000000000#64].head?, ¬ e.isMatch params (sending 0 0)) ∧
    (∀ g ∈ (sending 0 0).gaps, ∀ a ∈ g, ¬ a.isMatch params (sending 0 0)) := by
  refine ⟨rfl, rfl, ?_, ?_⟩
  · intro e he; simp at he; subst he; simp [Event.isMatch]
  · intro g hg; cases hg

theorem witness_RebindingLosesNotification :
    let s := { sending 0 params.resetSlotCount with
      engInst := params.instanceOf 1 + 1, agenda := [.agent .engNotify] }
    s.init = true ∧ s.agenda = [.agent .engNotify] ∧ s.engActive = true ∧ s.engPos = s.engLen ∧
      s.engInst ≠ params.instanceOf s.hnd := by
  refine ⟨rfl, rfl, rfl, ?_, ?_⟩
  · show params.resetSlotCount = 0 * 24 + params.resetSlotCount; omega
  · show params.instanceOf 1 + 1 ≠ params.instanceOf 1; simp

/-- All of the window of a full strip, read from its first slot. -/
theorem witness_EngineReadsAscending :
    let n := params.capacity * 24 + params.resetSlotCount
    let s := { sending params.capacity 0 with agenda := agentsOnly (List.replicate n .engRead) ++ [] }
    s.engActive = true ∧ s.engPos + n ≤ s.engLen ∧ s.engLen ≤ params.bufLen ∧ s.line = [] ++ [[]] ∧
      s.agenda = agentsOnly (List.replicate n .engRead) ++ [] := by
  refine ⟨rfl, ?_, Nat.le_refl _, rfl, rfl⟩
  show 0 + (params.capacity * 24 + params.resetSlotCount) ≤ params.capacity * 24 + params.resetSlotCount
  omega

theorem witness_StoppedEngineStaysStopped :
    let s := { bound 1 with agenda := agentsOnly [.engRead, .engNotify, .ntfWord 0#64] ++ [] }
    s.engActive = false ∧ s.fsm = .idle ∧
      s.agenda = agentsOnly [.engRead, .engNotify, .ntfWord 0#64] ++ [] := ⟨rfl, rfl, rfl⟩

/-! Invariants: in Idle and in Transmitting, with no LED and with all of them. -/

theorem witness_StepKeepsInvariant :
    Inv params { bound params.capacity with agenda := [.cmdWord 0x5000000000000000#64] } ∧
    step { bound params.capacity with agenda := [.cmdWord 0x5000000000000000#64] } =
      .next { sending params.capacity 0 with agenda := [], statusOut := some .ok } := by
  have h := bound_inv params.capacity (Nat.le_refl _)
  exact ⟨⟨h.1, h.2, h.3, h.4, h.5, h.6, h.7, h.8, h.9, h.10⟩, step_show_bound _ (Nat.le_refl _) []⟩

theorem witness_NoStepFaults : Inv params (bound 0) ∧ Inv params (sending params.capacity 0) ∧
    Inv params (sending 0 params.resetSlotCount) :=
  ⟨bound_inv 0 (Nat.zero_le _), sending_inv _ 0 (Nat.le_refl _) (Nat.zero_le _),
    sending_inv 0 _ (Nat.zero_le _) (by omega)⟩

/-- Init with no LED and then Show is a run from reset: a reachable state that is Transmitting. -/
theorem witness_Reachable : ∃ s, Reachable s ∧ s.init = true ∧ s.fsm = .transmitting ∧
    s.engActive = true := by
  have h1 := Reachable.schedule _
    [.cmdWord 0x1000010000010000#64, .cmdWord 0x5000000000000000#64] [] Reachable.reset
  have hd : decode .cmd 0x1000010000010000#64 = .ok (.init 1#16 1#8 0) := by decide
  have hs : (if params.capacity < 0 then Status.okClamped else Status.ok) = .ok := if_neg (by omega)
  have h2 : step ((State.reset.setAgenda
      [.cmdWord 0x1000010000010000#64, .cmdWord 0x5000000000000000#64]).setGaps []) =
      .next { bound 0 with agenda := [.cmdWord 0x5000000000000000#64], statusOut := some .ok } := by
    simp only [step, State.setGaps_agenda, State.setAgenda_agenda, deliver, hd, exec, execInit, initOp,
      initStatus, hs, clampCount, Nat.zero_min]
    rfl
  have h3 := Reachable.schedule _ [.cmdWord 0x5000000000000000#64] [] (Reachable.step _ _ h1 h2)
  have h4 : ∃ t, step ((({ bound 0 with
      agenda := [.cmdWord 0x5000000000000000#64], statusOut := some .ok } : State).setAgenda
      [.cmdWord 0x5000000000000000#64]).setGaps []) = .next t ∧ t.init = true ∧ t.fsm = .transmitting ∧
      t.engActive = true := by
    have hsd : decode .cmd 0x5000000000000000#64 = .ok .showStrip := by decide
    simp only [step, State.setGaps_agenda, State.setAgenda_agenda, deliver, hsd, exec, execShow, showOp]
    rw [if_neg (by simp [bound]), if_neg (by simp [bound, State.reset])]
    have hf : ((((({ bound 0 with
        agenda := [.cmdWord 0x5000000000000000#64], statusOut := some .ok } : State).setAgenda
        [.cmdWord 0x5000000000000000#64]).setGaps []).setAgenda []).activeFault params) = none :=
      bound_activeFault 0 (Nat.zero_le _)
    rw [hf]
    exact ⟨_, rfl, by simp [bound], rfl, rfl⟩
  obtain ⟨t, h5, h6⟩ := h4
  exact ⟨t, Reachable.step _ _ h3 h5, h6⟩

theorem witness_ActiveCountWithinCapacity : Reachable State.reset ∧
    exec (.init 1#16 1#8 65535) State.reset = .next ((State.reset.bindOutput 1 1
      (clampCount params 65535)).drive (initStatus params 65535)) := ⟨.reset, rfl⟩

theorem witness_SlotValuesAreCodes : Reachable State.reset ∧ params.capacity * 24 ≤ params.capacity * 24 :=
  ⟨.reset, Nat.le_refl _⟩

theorem witness_NothingBeforeInit : Reachable State.reset ∧ State.reset.init = false := ⟨.reset, rfl⟩

theorem witness_TransmittingMeansActiveAndBound : (∃ s, Reachable s ∧ s.fsm = .transmitting) ∧
    step { bound 0 with agenda := [.cmdWord 0x5000000000000000#64] } =
      .next { sending 0 0 with agenda := [], statusOut := some .ok } ∧ (bound 0).init = true :=
  ⟨let ⟨s, h, _, hf, _⟩ := witness_Reachable; ⟨s, h, hf⟩, step_show_bound 0 (Nat.zero_le _) [], rfl⟩

theorem witness_EngineWindowInBuffer : ∃ s, Reachable s ∧ s.engActive = true :=
  let ⟨s, h, _, _, ha⟩ := witness_Reachable; ⟨s, h, ha⟩

theorem witness_NothingHappensUntilInit : ∀ h ch n, Instr.init h ch n ∉
    [Instr.setled 0 1#8 1#8 1#8 100#8, .fillall 1#8 1#8 1#8 100#8, .prep, .showStrip, .complete 7#16] := by
  intro h ch n hm; simp at hm

/-- What the engine does in a transfer of `k` slots. -/
def wholeTransfer (k : Nat) : List AgentStep := List.replicate k AgentStep.engRead ++ [AgentStep.engNotify]

/-- Idle with `n` LEDs; next come a Show and a whole transfer of `k` slots. -/
def beforeShow (n k : Nat) : State :=
  (bound n).setAgenda (.cmdWord 0x5000000000000000#64 :: agentsOnly (wholeTransfer k))

/-- The number of slots of a whole transfer of a full strip. -/
def fullLength : Nat := params.capacity * 24 + params.resetSlotCount

/-- A full strip after its transfer. -/
def sent : State := ((sending params.capacity fullLength).engStop 0 0).setFsm .idle

/-- A run without end that keeps every premise of R166: Show, a second Show that is ignored, the engine's reads
one after another, its notification, and nothing more. -/
def wholeRun : Nat → State
  | 0 => (bound params.capacity).setAgenda [.cmdWord 0x5000000000000000#64]
  | 1 => ((sending params.capacity 0).drive .ok).setAgenda [.cmdWord 0x5000000000000000#64]
  | k + 2 =>
    if k < fullLength then ((sending params.capacity k).drive .ignBusy).setAgenda [.agent .engRead]
    else if k = fullLength then ((sending params.capacity k).drive .ignBusy).setAgenda [.agent .engNotify]
    else (sent.drive .ok).setAgenda []

theorem sending_engRead (n k : Nat) (es : List Event) (c : Status) :
    (((sending n k).drive c).setAgenda es).engRead = ((sending n (k + 1)).drive c).setAgenda es := by
  have h : appendToLast [List.replicate k 0] (0 : Slot) = [List.replicate (k + 1) 0] := by
    simp [appendToLast, List.replicate_succ']
  show ({ ((sending n k).drive c).setAgenda es with
    line := appendToLast [List.replicate k 0] 0, engPos := k + 1 } : State) = _
  rw [h]; rfl

theorem wholeRun_read (k : Nat) (hk : k < fullLength) :
    wholeRun (k + 2) = ((sending params.capacity k).drive .ignBusy).setAgenda [.agent .engRead] := by
  simp [wholeRun, hk]

theorem wholeRun_notify : wholeRun (fullLength + 2) =
    ((sending params.capacity fullLength).drive .ignBusy).setAgenda [.agent .engNotify] := by
  simp [wholeRun]

theorem wholeRun_after (k : Nat) (hk : fullLength < k) : wholeRun (k + 2) = (sent.drive .ok).setAgenda [] := by
  have h1 : ¬ k < fullLength := by omega
  have h2 : ¬ k = fullLength := by omega
  simp [wholeRun, h1, h2]

theorem wholeRun_run : Run wholeRun := by
  intro k
  rcases k with _ | _ | k
  · exact ⟨_, [.cmdWord 0x5000000000000000#64], [], step_show_bound params.capacity (Nat.le_refl _) [], rfl⟩
  · refine ⟨((sending params.capacity 0).drive .ignBusy).setAgenda [], [.agent .engRead], [], rfl, ?_⟩
    have := Config.params_one_le_resetSlotCount
    rw [wholeRun_read 0 (by unfold fullLength; omega)]; rfl
  · rcases Nat.lt_trichotomy k fullLength with hlt | heq | hgt
    · rw [wholeRun_read k hlt]
      have hs := step_engRead (((sending params.capacity k).drive .ignBusy).setAgenda [.agent .engRead]) [] rfl
        rfl hlt (sending_engineFault params.capacity k (Nat.le_refl _))
      have he := sending_engRead params.capacity k [] .ignBusy
      refine ⟨_, if k + 1 < fullLength then [.agent .engRead] else [.agent .engNotify], [], hs, ?_⟩
      show wholeRun (k + 1 + 2) = (((((sending params.capacity k).drive .ignBusy).setAgenda []).engRead).setAgenda
        _).setGaps []
      rw [he]
      by_cases hk : k + 1 < fullLength
      · rw [wholeRun_read _ hk, if_pos hk]; rfl
      · have : k + 1 = fullLength := by omega
        rw [if_neg hk, this, wholeRun_notify]; rfl
    · subst heq
      rw [wholeRun_notify]
      have hen : ((((sending params.capacity fullLength).drive .ignBusy).setAgenda
          [.agent .engNotify]).setAgenda []).engNotifyEnabled = true :=
        (engNotifyEnabled_iff _).2 ⟨rfl, rfl⟩
      have hs : step (((sending params.capacity fullLength).drive .ignBusy).setAgenda [.agent .engNotify]) =
          .next ((sent.drive .ok).setAgenda []) := by
        unfold step
        simp only [State.setAgenda_agenda, agentEvent, hen, if_true, exec, execComplete, completeOp]
        unfold State.onTransferComplete
        rw [if_neg (by simp [sending, bound]), if_neg (by simp [sending, bound]),
          if_neg (by simp [sending])]
        rfl
      exact ⟨_, [], [], hs, by rw [wholeRun_after (fullLength + 1) (by omega)]; rfl⟩
    · rw [wholeRun_after k hgt, wholeRun_after (k + 1) (by omega)]
      exact ⟨_, [], [], rfl, rfl⟩

/-- What the run takes at each step: nothing inside an operation, and the engine's step where it is scheduled. -/
theorem wholeRun_taken (k : Nat) : stepTaken params (wholeRun k) = [] ∨
    (∃ j, j < fullLength ∧ k = j + 2 ∧
      stepTaken params (wholeRun k) = [((wholeRun k).setAgenda [], .engRead)]) ∨
    (k = fullLength + 2 ∧ stepTaken params (wholeRun k) = [((wholeRun k).setAgenda [], .engNotify)]) := by
  have hd : decode .cmd 0x5000000000000000#64 = .ok .showStrip := by decide
  rcases k with _ | _ | k
  · left
    simp only [wholeRun, stepTaken, State.setAgenda_agenda, hd, execTaken]
    rw [tailTaken_of_gaps_nil _ _ rfl, boundaryTaken_of_gaps_nil _ _ (by simp [State.zeroTail, bound,
      State.reset])]
    simp
  · left
    simp only [wholeRun, stepTaken, State.setAgenda_agenda, hd]
    rfl
  · rcases Nat.lt_trichotomy k fullLength with hlt | heq | hgt
    · exact .inr (.inl ⟨k, hlt, rfl, by rw [wholeRun_read k hlt]; rfl⟩)
    · subst heq
      exact .inr (.inr ⟨rfl, by rw [wholeRun_notify]; rfl⟩)
    · exact .inl (by rw [wholeRun_after k hgt]; rfl)

theorem wholeRun_notifyAtEnd (k : Nat) : NotifyAtEnd params (wholeRun k) := by
  intro x a hx _ hm
  rcases wholeRun_taken k with h | ⟨_, _, _, h⟩ | ⟨_, h⟩ <;> rw [h] at hx <;> simp at hx
  · obtain ⟨rfl, rfl⟩ := hx; exact hm.elim
  · exact hx.2

theorem wholeRun_appDiscipline (k : Nat) : AppDiscipline (wholeRun k) := by
  have hd : decode .cmd 0x5000000000000000#64 = .ok .showStrip := by decide
  intro _ w i ha hw
  rcases k with _ | _ | k
  · simp [wholeRun] at ha; subst ha; rw [hd] at hw; cases hw; rfl
  · simp [wholeRun] at ha; subst ha; rw [hd] at hw; cases hw; rfl
  · rcases Nat.lt_trichotomy k fullLength with hlt | heq | hgt
    · rw [wholeRun_read k hlt] at ha; cases ha
    · subst heq; rw [wholeRun_notify] at ha; cases ha
    · rw [wholeRun_after k hgt] at ha; cases ha

theorem wholeRun_transmitting (k : Nat) (h0 : 0 < k) (hk : k ≤ fullLength + 2) :
    (wholeRun k).fsm = .transmitting := by
  rcases k with _ | _ | k
  · omega
  · rfl
  · rcases Nat.lt_or_ge k fullLength with hlt | hge
    · rw [wholeRun_read k hlt]; rfl
    · have : k = fullLength := by omega
      subst this; rw [wholeRun_notify]; rfl

theorem wholeRun_eventuallyNotifies : EventuallyNotifies params wholeRun := by
  have hlater : ∀ k, fullLength < k → (wholeRun (k + 2)).engActive = false := by
    intro k hk; rw [wholeRun_after k hk]; rfl
  have hread : ∀ k, fullLength < k → (wholeRun (k + 2)).engReadEnabled = false := by
    intro k hk; simp [State.engReadEnabled, hlater k hk]
  have hnot : ∀ k, fullLength < k → (wholeRun (k + 2)).engNotifyEnabled = false := by
    intro k hk; simp [State.engNotifyEnabled, hlater k hk]
  exact ⟨fun k _ => ⟨k + fullLength + 1 + 2, by omega, .inl (hread _ (by omega))⟩,
    fun k _ => ⟨k + fullLength + 1 + 2, by omega, .inl (hnot _ (by omega))⟩⟩

theorem wholeRun_zero_inv : Inv params (wholeRun 0) := by
  have h := bound_inv params.capacity (Nat.le_refl _)
  exact ⟨h.1, h.2, h.3, h.4, h.5, h.6, h.7, h.8, h.9, h.10⟩

theorem witness_DisciplinedRunSendsFrame :
    Inv params (wholeRun 0) ∧ (wholeRun 0).init = true ∧ (wholeRun 0).fsm = .idle ∧
    (wholeRun 0).agenda = [.cmdWord 0x5000000000000000#64] ∧
    decode .cmd 0x5000000000000000#64 = .ok .showStrip ∧ RunTo (fullLength + 2 + 1) wholeRun ∧
    (∀ k, k ≤ fullLength + 2 → AppDiscipline (wholeRun k) ∧ NotifyAtEnd params (wholeRun k)) ∧
    (∀ k, 0 < k → k ≤ fullLength + 2 → (wholeRun k).fsm = .transmitting) ∧
    (wholeRun (fullLength + 2 + 1)).fsm = .idle := by
  refine ⟨wholeRun_zero_inv, rfl, rfl, rfl, by decide, fun k _ => wholeRun_run k,
    fun k _ => ⟨wholeRun_appDiscipline k, wholeRun_notifyAtEnd k⟩, wholeRun_transmitting, ?_⟩
  have := wholeRun_after (fullLength + 1) (by omega)
  rw [show fullLength + 2 + 1 = fullLength + 1 + 2 by omega, this]; rfl

theorem witness_DisciplinedRunReturnsToIdle :
    Run wholeRun ∧ Inv params (wholeRun 0) ∧ (wholeRun 0).fsm = .idle ∧
    (∀ k, AppDiscipline (wholeRun k)) ∧ EventuallyNotifies params wholeRun ∧
    (wholeRun 1).fsm = .transmitting :=
  ⟨wholeRun_run, wholeRun_zero_inv, rfl, wholeRun_appDiscipline, wholeRun_eventuallyNotifies, rfl⟩

/-- The premises refuse something: a SetLed while Transmitting is not disciplined, and a matching word while the
engine is active is not the engine's own notification, though while it is inactive it may come. -/
theorem test_premises_refuse :
    ¬ AppDiscipline ((sending 0 0).setAgenda [.cmdWord 0x200000FF00006400#64]) ∧
    (∀ w, decode .ntf w = .ok (.complete (params.instanceOf 1)) →
      ¬ NotifyAtEnd params ((sending 0 0).setAgenda [.agent (.ntfWord w)]) ∧
      NotifyAtEnd params ((bound 0).setAgenda [.agent (.ntfWord w)])) := by
  constructor
  · intro h
    have := h rfl _ (.setled 0 255#8 0#8 0#8 100#8) rfl (by decide)
    cases this
  · intro w hw
    constructor
    · intro h
      have := h _ _ (List.mem_singleton.2 rfl) rfl hw
      cases this
    · intro x a hx ha
      simp [stepTaken] at hx
      obtain ⟨rfl, rfl⟩ := hx
      cases ha

/-- Reset is what the empty history makes, and a bound strip is what an Init makes. -/
theorem witness_OperationKeepsHistoryAgreement :
    Inv params State.reset ∧ Agrees params [] State.reset ∧ State.reset.gaps = [] ∧
    exec (.init 1#16 1#8 2) State.reset = .next ((State.reset.bindOutput 1 1
      (clampCount params 2)).drive (initStatus params 2)) := by
  refine ⟨?_, ⟨rfl, ?_, rfl, ?_, fun _ => rfl⟩, rfl, rfl⟩
  · refine ⟨rfl, ?_, ?_, Nat.zero_le _, fun _ => ⟨rfl, rfl, rfl, rfl, rfl⟩, ?_, ?_, ?_, ?_, rfl⟩
    · intro c hc; cases hc
    · intro c hc; cases hc
    · constructor <;> intro h <;> cases h
    · intro h; cases h
    · intro h; cases h
    · intro h; cases h
  · intro h hh; cases hh
  · constructor <;> intro h <;> cases h

theorem witness_TransferCompletes :
    let n := 0 * 24 + params.resetSlotCount
    let s := beforeShow 0 n
    Inv params s ∧ s.init = true ∧ s.fsm = .idle ∧ n = s.alc * 24 + params.resetSlotCount ∧
      decode .cmd 0x5000000000000000#64 = .ok .showStrip := by
  have h := bound_inv 0 (Nat.zero_le _)
  exact ⟨⟨h.1, h.2, h.3, h.4, h.5, h.6, h.7, h.8, h.9, h.10⟩, rfl, rfl, rfl, rfl⟩

end Tests
end Machine
end Sys2Proof
end

-- ==== Proofs: scope (spec/00_scope.md) ====
section
/-! Power-on as spec/00_scope.md R11 decides it: what `boot` answers on each side of `Params.WellFormed`. -/

namespace Sys2Proof
namespace Machine

open Config (Params)

@[simp] theorem boot_of_wellFormed {cfg : Params} (h : cfg.WellFormed) :
    boot cfg = .next State.reset := if_pos h

@[simp] theorem boot_of_not_wellFormed {cfg : Params} (h : ¬ cfg.WellFormed) :
    boot cfg = .refused .illFormedConfiguration := if_neg h

/-- Settles O9: the two answers of `boot`, one on each side of its test. -/
theorem illFormedConfigurationRefused : Obligations.IllFormedConfigurationRefused :=
  fun _ => ⟨boot_of_wellFormed, boot_of_not_wellFormed⟩

end Machine
end Sys2Proof
end

-- ==== Proofs: state (spec/10_state.md) ====
section
/-! The invariants of spec/10_state.md. First what one operation and one step of the machine can do, guards
included; then that each of these things keeps `Inv`; then what `Inv` says of every reachable state. -/

namespace Sys2Proof
namespace Machine

open Config (Params)

/-! ### What one operation and one step can do -/

/-- Everything an operation that answers a next state can have done: it was ignored, or it took effect under
its own guards (R130, R132, R135, R138, R150, R153). -/
inductive Performed (cfg : Params) (s : State) : Instr → State → Prop where
  | ignored (i : Instr) (hg : statusIgnored (statusOf cfg i s) = true) :
      Performed cfg s i (s.drive (statusOf cfg i s))
  | init (h : Handle) (ch : Chan) (n : Nat) :
      Performed cfg s (.init h ch n) ((s.bindOutput h ch (clampCount cfg n)).drive (initStatus cfg n))
  | setled (index : Nat) (r g b br : Byte) (hi : s.init = true) (hx : index < s.alc)
      (hf : s.activeFault cfg = none) :
      Performed cfg s (.setled index r g b br)
        ((s.perform cfg (.led index 0 (index + 1) (encode24 cfg r g b br)) 24).drive .ok)
  | fillall (r g b br : Byte) (hi : s.init = true) (hf : s.activeFault cfg = none) :
      Performed cfg s (.fillall r g b br)
        ((s.perform cfg (.led 0 0 s.alc (encode24 cfg r g b br)) (24 * s.alc)).drive .ok)
  | prep (hf : s.engineFault cfg = none) : Performed cfg s .prep ((s.zeroTail cfg).drive .ok)
  | showStrip (t : State) (ht : t = (s.zeroTail cfg).takeGap cfg) (hi : s.init = true) (hs : s.fsm = .idle)
      (hf : s.activeFault cfg = none) :
      Performed cfg s .showStrip
        (((t.engStart (cfg.instanceOf t.hnd) t.chn (totalLength cfg s.alc)).setFsm .transmitting).drive .ok)
  | complete (id : InstanceId) (hg : completeStatus cfg id s = .ok) :
      Performed cfg s (.complete id) (((s.engStop (cfg.instanceOf s.hnd) s.chn).setFsm .idle).drive .ok)

theorem setLedOp_performed {cfg : Params} {index : Nat} {r g b br : Byte} {s t : State}
    (h : setLedOp cfg index r g b br s = .next t) : Performed cfg s (.setled index r g b br) t := by
  have ign := Performed.ignored (cfg := cfg) (s := s) (.setled index r g b br)
  unfold setLedOp at h
  simp only [statusOf, setLedStatus] at ign
  split_ifs at h with h1 h2
  · cases h; simpa [h1, statusIgnored] using ign
  · cases h; simpa [h1, h2, statusIgnored] using ign
  · split at h
    · cases h
    · cases h; exact .setled _ _ _ _ _ (by simpa using h1) (by omega) ‹_›

theorem fillAllOp_performed {cfg : Params} {r g b br : Byte} {s t : State}
    (h : fillAllOp cfg r g b br s = .next t) : Performed cfg s (.fillall r g b br) t := by
  have ign := Performed.ignored (cfg := cfg) (s := s) (.fillall r g b br)
  unfold fillAllOp at h
  simp only [statusOf, fillAllStatus] at ign
  split_ifs at h with h1
  · cases h; simpa [h1, statusIgnored] using ign
  · split at h
    · cases h
    · cases h; exact .fillall _ _ _ _ (by simpa using h1) ‹_›

theorem prepOp_performed {cfg : Params} {s t : State} (h : prepOp cfg s = .next t) :
    Performed cfg s .prep t := by
  unfold prepOp at h
  split at h
  · cases h
  · cases h; exact .prep ‹_›

theorem showOp_performed {cfg : Params} {s t : State} (h : showOp cfg s = .next t) :
    Performed cfg s .showStrip t := by
  have ign := Performed.ignored (cfg := cfg) (s := s) .showStrip
  unfold showOp at h
  simp only [statusOf, showStatus] at ign
  split_ifs at h with h1 h2
  · cases h; simpa [h1, statusIgnored] using ign
  · cases h; simpa [h1, h2, statusIgnored] using ign
  · split at h
    · cases h
    · cases h
      refine .showStrip _ rfl (by simpa using h1) ?_ ‹_›
      cases hs : s.fsm
      · rfl
      · exact absurd hs h2

theorem onTransferComplete_performed (cfg : Params) (id : InstanceId) (s : State) :
    Performed cfg s (.complete id) (s.onTransferComplete cfg id) := by
  rcases onTransferComplete_cases cfg id s with ⟨hg, h⟩ | ⟨hi, hid, hs, h⟩ <;> rw [h]
  · exact .ignored (.complete id) hg
  · exact .complete id (by simp [completeStatus, hi, hid, hs])

/-- The inversion of `exec`: one case for every way an operation can answer a next state. -/
theorem exec_performed {i : Instr} {s t : State} (h : exec i s = .next t) :
    Performed Config.params s i t := by
  cases i with
  | init hd ch n => cases h; exact .init hd ch n
  | setled index r g b br => exact setLedOp_performed h
  | fillall r g b br => exact fillAllOp_performed h
  | prep => exact prepOp_performed h
  | showStrip => exact showOp_performed h
  | complete id => cases h; exact onTransferComplete_performed _ id s

/-- Another agent's event between two operations, if it answers a next state, is the step that agent takes
inside operations too (R7, R185). -/
theorem agentEvent_next {a : AgentStep} {s t : State} (h : agentEvent a s = .next t) :
    t = s.agentStep Config.params a := by
  cases a with
  | ntfWord w =>
    simp only [agentEvent, deliver] at h
    simp only [State.agentStep, State.takeNotification]
    rcases hw : decode .ntf w with r | i <;> simp only [hw] at h ⊢
    · cases h; rfl
    · have hp := (decode_ok .ntf w i hw).2
      cases i with
      | complete id => cases h; rfl
      | _ => cases hp
  | engRead =>
    simp only [agentEvent, engReadOp] at h
    simp only [State.agentStep]
    split_ifs at h ⊢
    · split at h <;> cases h
      rfl
    · cases h; rfl
  | engNotify =>
    simp only [agentEvent] at h
    simp only [State.agentStep]
    split_ifs at h ⊢ <;> cases h <;> rfl

/-- Everything one step that answers a next state can have done (R6, R7, R89): nothing, perform the operation a
command word decodes to, reject a command word, or take another agent's step. -/
theorem step_cases {s t : State} (h : step s = .next t) :
    (s.agenda = [] ∧ t = s) ∨
    (∃ w es i, s.agenda = .cmdWord w :: es ∧ decode .cmd w = .ok i ∧
      Performed Config.params (s.setAgenda es) i t) ∨
    (∃ w es r, s.agenda = .cmdWord w :: es ∧ decode .cmd w = .error r ∧
      t = (s.setAgenda es).drive .ignBadOp) ∨
    ∃ a es, s.agenda = .agent a :: es ∧ t = (s.setAgenda es).agentStep Config.params a := by
  rcases hag : s.agenda with _ | ⟨e, es⟩
  · simp only [step, hag] at h
    cases h
    exact .inl ⟨rfl, rfl⟩
  cases e with
  | cmdWord w =>
    simp only [step, hag, deliver] at h
    rcases hw : decode .cmd w with r | i <;> simp only [hw] at h
    · cases h
      exact .inr (.inr (.inl ⟨w, es, r, rfl, hw, rfl⟩))
    · exact .inr (.inl ⟨w, es, i, rfl, hw, exec_performed h⟩)
  | agent a =>
    simp only [step, hag] at h
    exact .inr (.inr (.inr ⟨a, es, rfl, agentEvent_next h⟩))

/-! ### What every step leaves of the registers -/

/-- R34: every operation but Init leaves `ALC` as it is. -/
theorem Performed.alc_of_ne_init {cfg : Params} {i : Instr} {s t : State} (h : Performed cfg s i t)
    (hne : ∀ hd ch n, i ≠ .init hd ch n) : t.alc = s.alc := by
  cases h with
  | init hd ch n => exact absurd rfl (hne hd ch n)
  | showStrip t ht => simp [ht]
  | _ => simp

/-- R39: no operation clears `INIT`. -/
theorem Performed.init_of_init {cfg : Params} {i : Instr} {s t : State} (h : Performed cfg s i t)
    (hi : s.init = true) : t.init = true := by
  cases h with
  | init hd ch n => rfl
  | showStrip t ht => simp [ht, hi]
  | _ => simpa using hi

/-- R39: no step clears `INIT`. -/
theorem step_init_of_init {s t : State} (h : step s = .next t) (hi : s.init = true) : t.init = true := by
  rcases step_cases h with ⟨_, rfl⟩ | ⟨w, es, i, _, _, hp⟩ | ⟨w, es, r, _, _, rfl⟩ | ⟨a, es, _, rfl⟩
  · exact hi
  · exact hp.init_of_init hi
  · exact hi
  · simpa using hi

/-- R155: the other agents never leave Idle. -/
theorem agentStep_fsm_idle (cfg : Params) (s : State) (a : AgentStep) (h : s.fsm = .idle) :
    (s.agentStep cfg a).fsm = .idle := by
  rcases agentStep_cases cfg s a with h' | h' | ⟨id, h', _⟩ | ⟨_, _, h'⟩ <;> rw [h']
  · exact h
  · exact h
  · rcases onTransferComplete_cases cfg id s with ⟨_, h''⟩ | ⟨_, _, _, h''⟩ <;> rw [h'']
    · exact h
    · rfl
  · exact h

/-- R155: slot writes, whatever falls between them, never leave Idle. -/
theorem perform_fsm_idle (cfg : Params) (p : Progress) (n : Nat) (s : State) (h : s.fsm = .idle) :
    (s.perform cfg p n).fsm = .idle :=
  runWrites_keeps cfg (fun t => t.fsm = .idle) (agentStep_fsm_idle cfg) (fun _ _ h => h)
    (fun _ h => by simpa using h) n (s.setProgress p) h

/-- R26, R155: of the operations only a Show with `INIT` set leads from Idle to Transmitting. -/
theorem Performed.show_of_transmitting {cfg : Params} {i : Instr} {s t : State} (h : Performed cfg s i t)
    (hs : s.fsm = .idle) (ht : t.fsm = .transmitting) : s.init = true ∧ i = .showStrip := by
  cases h with
  | showStrip t _ hi => exact ⟨hi, rfl⟩
  | ignored => simp [hs] at ht
  | init => simp [hs] at ht
  | setled => simp [perform_fsm_idle, hs] at ht
  | fillall => simp [perform_fsm_idle, hs] at ht
  | prep => simp [State.zeroTail, perform_fsm_idle, hs] at ht
  | complete => simp at ht

/-- Settles O33: of the four things a step can do, only performing an operation can leave Idle. -/
theorem onlyShowStartsTransmitting : Obligations.OnlyShowStartsTransmitting := by
  intro s t h hs ht
  rcases step_cases h with ⟨_, rfl⟩ | ⟨w, es, i, hag, hw, hp⟩ | ⟨w, es, r, _, _, rfl⟩ | ⟨a, es, _, rfl⟩
  · simp [hs] at ht
  · obtain ⟨hi, rfl⟩ := hp.show_of_transmitting hs ht
    exact ⟨hi, w, es, hag, hw⟩
  · simp [hs] at ht
  · simp [agentStep_fsm_idle Config.params (s.setAgenda es) a hs] at ht

/-! ### What keeps the invariants -/

/-- The invariants look neither at the status output nor at the schedule. -/
theorem Inv.drive {cfg : Params} {s : State} (h : Inv cfg s) (c : Status) : Inv cfg (s.drive c) :=
  { h with }

theorem Inv.setAgenda {cfg : Params} {s : State} (h : Inv cfg s) (es : List Event) :
    Inv cfg (s.setAgenda es) := { h with }

theorem Inv.setGaps {cfg : Params} {s : State} (h : Inv cfg s) (gs : List (List AgentStep)) :
    Inv cfg (s.setGaps gs) := { h with }

/-- R34: binding an output with a count within the capacity. -/
theorem Inv.bindOutput {cfg : Params} {s : State} (h : Inv cfg s) (hd : Handle) (ch : Chan) {n : Nat}
    (hn : n ≤ cfg.capacity) : Inv cfg (s.bindOutput hd ch n) :=
  { h with
    alcBound := hn
    uninit := fun h0 => by simp at h0
    fsmInit := fun _ => rfl }

/-- R38: stopping the engine and going Idle. -/
theorem Inv.stop {cfg : Params} {s : State} (h : Inv cfg s) (inst : InstanceId) (ch : Chan) :
    Inv cfg ((s.engStop inst ch).setFsm .idle) :=
  { h with
    uninit := fun h0 => by
      obtain ⟨halc, hbuf, _, _, hline⟩ := h.uninit h0
      exact ⟨halc, hbuf, rfl, rfl, hline⟩
    fsmEngine := by simp
    fsmInit := fun h0 => by simp at h0
    window := fun h0 => by simp at h0
    record := fun h0 => by simp at h0 }

/-- R38, R42, R160: starting the engine with a window of `n` LEDs and going to Transmitting. -/
theorem Inv.start {cfg : Params} {s : State} (h : Inv cfg s) (hi : s.init = true) (inst : InstanceId)
    (ch : Chan) {n : Nat} (hn : n ≤ cfg.capacity) :
    Inv cfg ((s.engStart inst ch (totalLength cfg n)).setFsm .transmitting) :=
  { h with
    uninit := fun h0 => by simp [hi] at h0
    fsmEngine := by simp
    fsmInit := fun _ => hi
    window := fun _ => ⟨n, hn, rfl, Nat.zero_le _⟩
    record := fun _ => ⟨[], by simp, rfl⟩ }

/-- R42, R161: a read inside the window moves the position on and lengthens the open record by one. -/
theorem Inv.engRead {cfg : Params} {s : State} (h : Inv cfg s) (he : s.engReadEnabled = true) :
    Inv cfg s.engRead := by
  obtain ⟨hact, hpos⟩ := (engReadEnabled_iff s).1 he
  obtain ⟨n, hn, hlen, _⟩ := h.window hact
  obtain ⟨r, hr, hrl⟩ := h.record hact
  have hline : s.line = s.line.dropLast ++ [r] := (List.dropLast_append_getLast? r hr).symm
  exact { h with
    uninit := fun h0 => by
      obtain ⟨_, _, _, hoff, _⟩ := h.uninit h0
      rw [hact] at hoff
      cases hoff
    window := fun _ => ⟨n, hn, hlen, hpos⟩
    record := fun _ => ⟨r ++ [s.buf.read s.engPos], by
      rw [State.engRead_line, hline, appendToLast_concat]; simp, by simp [hrl]⟩ }

theorem Inv.onTransferComplete {cfg : Params} {s : State} (h : Inv cfg s) (id : InstanceId) :
    Inv cfg (s.onTransferComplete cfg id) := by
  rcases onTransferComplete_cases cfg id s with ⟨_, h'⟩ | ⟨_, _, _, h'⟩ <;> rw [h']
  · exact h.drive _
  · exact (h.stop _ _).drive _

/-- Every step of another agent keeps the invariants. -/
theorem Inv.agentStep {cfg : Params} {s : State} (h : Inv cfg s) (a : AgentStep) :
    Inv cfg (s.agentStep cfg a) := by
  rcases agentStep_cases cfg s a with h' | h' | ⟨id, h', _⟩ | ⟨_, he, h'⟩ <;> rw [h']
  · exact h
  · exact h.drive _
  · exact h.onTransferComplete id
  · exact h.engRead he

theorem Inv.takeGap {cfg : Params} {s : State} (h : Inv cfg s) : Inv cfg (s.takeGap cfg) :=
  takeGap_keeps cfg (Inv cfg) (fun _ a h => h.agentStep a) (fun _ gs h => h.setGaps gs) s h

/-- The value `v` may be written to slot `a`: 0 anywhere, a duty value only in an LED group of the buffer and
only after Init (R35, R36, R37). -/
def Writable (cfg : Params) (s : State) (a : Nat) (v : Slot) : Prop :=
  v = 0 ∨ s.init = true ∧ a < cfg.capacity * 24 ∧ (v = cfg.bitZeroDuty ∨ v = cfg.bitOneDuty)

theorem Inv.memWrite {cfg : Params} {s : State} (h : Inv cfg s) {a : Nat} {v : Slot}
    (hv : Writable cfg s a v) : Inv cfg (s.memWrite a v) :=
  { h with
    bufForm := Memory.write_wf _ _ _ h.bufForm
    bufInside := fun c hc => by
      rcases Memory.mem_write _ _ _ _ hc with ⟨rfl, h0⟩ | hc
      · exact (hv.resolve_left h0).2.1
      · exact h.bufInside c hc
    bufValues := fun c hc => by
      rcases Memory.mem_write _ _ _ _ hc with ⟨rfl, h0⟩ | hc
      · exact (hv.resolve_left h0).2.2
      · exact h.bufValues c hc
    uninit := fun h0 => by
      obtain ⟨halc, hbuf, hrest⟩ := h.uninit h0
      have hz : v = 0 := hv.resolve_right fun hw => by simp [hw.1] at h0
      exact ⟨halc, by simp [hbuf, hz, Memory.write], hrest⟩ }

/-! ### The slot writes of an operation -/

/-- The counters of an operation stand where every write still to come is `Writable`. -/
def Progress.InRange (cfg : Params) (s : State) : Progress → Prop
  | .none => True
  | .led i k stop out => s.init = true ∧ i < cfg.capacity ∧ k < 24 ∧ stop ≤ cfg.capacity ∧
      ∀ v ∈ out, v = cfg.bitZeroDuty ∨ v = cfg.bitOneDuty
  | .tail _ => True

theorem Progress.InRange.next {cfg : Params} {s : State} {p : Progress} (h : p.InRange cfg s) :
    (p.next cfg).InRange cfg s := by
  cases p with
  | none => trivial
  | led i k stop out =>
    obtain ⟨hi, hcap, _, hstop, hout⟩ := h
    simp only [Progress.next]
    split_ifs with h1 h2
    · exact ⟨hi, hcap, h1, hstop, hout⟩
    · exact ⟨hi, by omega, by omega, hstop, hout⟩
    · trivial
  | tail a => simp only [Progress.next]; split <;> trivial

/-- A value of a list of duty values, or 0 past its end, may be written to its slot. -/
theorem Progress.InRange.writable {cfg : Params} {s : State} {i k stop : Nat} {out : List Slot}
    (h : (Progress.led i k stop out).InRange cfg s) : Writable cfg s (ledSlot i k) (out.getD k 0) := by
  obtain ⟨hi, hcap, hk, _, hout⟩ := h
  by_cases hl : k < out.length
  · refine .inr ⟨hi, by unfold ledSlot; omega, hout _ ?_⟩
    rw [List.getD_eq_getElem _ _ hl]
    exact List.getElem_mem hl
  · exact .inl (List.getD_eq_default _ _ (by omega))

/-- What holds between two atomic steps of an operation: the invariants with the counters put away, and the
counters in range. -/
structure MidInv (cfg : Params) (s : State) : Prop where
  inv : Inv cfg (s.setProgress .none)
  counters : s.progress.InRange cfg s

/-- The completion handler does not look at the counters (R33). -/
theorem onTransferComplete_setProgress (cfg : Params) (id : InstanceId) (s : State) (p : Progress) :
    (s.setProgress p).onTransferComplete cfg id = (s.onTransferComplete cfg id).setProgress p := by
  simp only [State.onTransferComplete, apply_ite (State.setProgress · p)]
  rfl

/-- No step of another agent looks at the counters (R33). -/
theorem agentStep_setProgress (cfg : Params) (s : State) (p : Progress) (a : AgentStep) :
    (s.setProgress p).agentStep cfg a = (s.agentStep cfg a).setProgress p := by
  cases a with
  | ntfWord w =>
    simp only [State.agentStep, State.takeNotification]
    split
    · exact onTransferComplete_setProgress _ _ _ _
    · rfl
    · rfl
  | engRead =>
    simp only [State.agentStep, apply_ite (State.setProgress · p)]
    rfl
  | engNotify =>
    simp only [State.agentStep, apply_ite (State.setProgress · p), ← onTransferComplete_setProgress]
    rfl

theorem MidInv.agentStep {cfg : Params} {s : State} (h : MidInv cfg s) (a : AgentStep) :
    MidInv cfg (s.agentStep cfg a) where
  inv := by rw [← agentStep_setProgress]; exact h.inv.agentStep a
  counters := by simpa [Progress.InRange] using h.counters

theorem MidInv.setGaps {cfg : Params} {s : State} (h : MidInv cfg s) (gs : List (List AgentStep)) :
    MidInv cfg (s.setGaps gs) := ⟨h.inv.setGaps gs, h.counters⟩

/-- One slot write keeps the invariants and the counters in range. -/
theorem MidInv.advance {cfg : Params} {s : State} (h : MidInv cfg s) : MidInv cfg (s.advance cfg) := by
  obtain ⟨hinv, hc⟩ := h
  unfold State.advance
  split
  · exact ⟨hinv, hc⟩
  · rename_i i k stop out hp
    rw [hp] at hc
    exact ⟨hinv.memWrite (s := s.setProgress .none) hc.writable, hc.next⟩
  · rename_i a hp
    rw [hp] at hc
    exact ⟨hinv.memWrite (s := s.setProgress .none) (.inl rfl), hc.next⟩

/-- The slot writes of an operation, whatever falls between them, keep the invariants (R58, R185). -/
theorem Inv.perform {cfg : Params} {s : State} (h : Inv cfg s) {p : Progress} (hp : p.InRange cfg s) (n : Nat) :
    Inv cfg (s.perform cfg p n) :=
  (runWrites_keeps cfg (MidInv cfg) (fun _ a h => h.agentStep a) (fun _ gs h => h.setGaps gs)
    (fun _ h => h.advance) n (s.setProgress p) ⟨{ h with noProgress := rfl }, hp⟩).inv

theorem Inv.zeroTail {cfg : Params} {s : State} (h : Inv cfg s) : Inv cfg (s.zeroTail cfg) :=
  h.perform (p := .tail _) trivial _

/-! ### Every operation, every step, every reachable state -/

/-- Every operation keeps the invariants. -/
theorem Performed.inv {cfg : Params} (hcfg : cfg.WellFormed) {i : Instr} {s t : State}
    (h : Performed cfg s i t) (hs : Inv cfg s) : Inv cfg t := by
  have halc := hs.alcBound
  cases h with
  | ignored => exact hs.drive _
  | init hd ch n => exact (hs.bindOutput hd ch (Nat.min_le_right n cfg.capacity)).drive _
  | setled index r g b br hi hx =>
    have hp : (Progress.led index 0 (index + 1) (encode24 cfg r g b br)).InRange cfg s :=
      ⟨hi, by omega, by omega, by omega, encode24_mem cfg r g b br⟩
    exact (hs.perform hp _).drive _
  | fillall r g b br hi =>
    have hcap : 1 ≤ cfg.capacity := hcfg.1.1
    have hp : (Progress.led 0 0 s.alc (encode24 cfg r g b br)).InRange cfg s :=
      ⟨hi, hcap, by omega, halc, encode24_mem cfg r g b br⟩
    exact (hs.perform hp _).drive _
  | prep => exact hs.zeroTail.drive _
  | showStrip t ht hi =>
    subst ht
    exact (hs.zeroTail.takeGap.start (by simpa using hi) _ _ halc).drive _
  | complete id => exact (hs.stop _ _).drive _

/-- Settles O39: each of the four things a step can do keeps the invariants. -/
theorem stepKeepsInvariant : Obligations.StepKeepsInvariant := by
  intro s t hs h
  rcases step_cases h with ⟨_, rfl⟩ | ⟨w, es, i, _, _, hp⟩ | ⟨w, es, r, _, _, rfl⟩ | ⟨a, es, _, rfl⟩
  · exact hs
  · exact hp.inv Config.params_wellFormed (hs.setAgenda es)
  · exact (hs.setAgenda es).drive _
  · exact (hs.setAgenda es).agentStep a

/-- Settles O10: the reset values as `State.reset` lists them. -/
theorem resetValues : Obligations.ResetValues :=
  ⟨Memory.read_nil, rfl, rfl, rfl, rfl, rfl⟩

/-- The reset state meets the invariants of every configuration. -/
theorem inv_reset (cfg : Params) : Inv cfg State.reset where
  bufForm := rfl
  bufInside := fun _ hc => nomatch hc
  bufValues := fun _ hc => nomatch hc
  alcBound := Nat.zero_le _
  uninit := fun _ => ⟨rfl, rfl, rfl, rfl, rfl⟩
  fsmEngine := by simp [State.reset]
  fsmInit := fun h => nomatch h
  window := fun h => nomatch h
  record := fun h => nomatch h
  noProgress := rfl

/-- Settles O38: with an empty buffer, no active LED and the engine inactive, every clause is about nothing. -/
theorem invariantAtReset : Obligations.InvariantAtReset := inv_reset Config.params

/-- Every reachable state meets the invariants. -/
theorem Reachable.inv {s : State} (h : Reachable s) : Inv Config.params s := by
  induction h with
  | reset => exact invariantAtReset
  | schedule s es gs _ ih => exact (ih.setAgenda es).setGaps gs
  | step s t _ hs ih => exact stepKeepsInvariant s t ih hs

/-- Settles O41: the bound is a clause of the invariants, the sole writer is read off what operations do. -/
theorem activeCountWithinCapacity : Obligations.ActiveCountWithinCapacity := by
  refine ⟨rfl, fun s hs => hs.inv.alcBound, fun i s t h => ?_⟩
  cases i with
  | init hd ch n => cases h; rfl
  | _ => exact (exec_performed h).alc_of_ne_init (by simp)

/-- A slot that does not read 0 is listed with its value. -/
theorem Memory.read_eq_zero_or_mem (m : Memory) (a : Nat) : m.read a = 0 ∨ (a, m.read a) ∈ m := by
  induction m with
  | nil => exact .inl rfl
  | cons c m ih =>
    obtain ⟨b, v⟩ := c
    rw [Memory.read_cons]
    split_ifs with h
    · exact .inr (by simp [h])
    · exact ih.imp_right (List.mem_cons_of_mem _)

/-- Settles O42: a slot that reads nonzero is a cell of the buffer, and `Inv` bounds the cells. -/
theorem slotValuesAreCodes : Obligations.SlotValuesAreCodes := by
  intro s hs
  refine ⟨fun a => ?_, fun a ha => ?_⟩
  · exact (Memory.read_eq_zero_or_mem s.buf a).imp_right (hs.inv.bufValues _)
  · refine (Memory.read_eq_zero_or_mem s.buf a).resolve_right fun hc => ?_
    exact absurd (hs.inv.bufInside _ hc) (Nat.not_lt.2 ha)

/-- Settles O43: before Init the buffer lists no slot. -/
theorem nothingBeforeInit : Obligations.NothingBeforeInit := by
  intro s hs h0
  obtain ⟨_, hbuf, hfsm, heng, hline⟩ := hs.inv.uninit h0
  exact ⟨fun a => by simp [hbuf], hfsm, heng, hline⟩

/-- Settles O44: two clauses of the invariants, and that no step clears `INIT`. -/
theorem transmittingMeansActiveAndBound : Obligations.TransmittingMeansActiveAndBound :=
  ⟨fun _ hs => hs.inv.fsmEngine, fun _ hs => hs.inv.fsmInit, fun _ _ => step_init_of_init⟩

/-- Settles O45: a window of at most `CAPACITY` LED groups and the reset slots fits the buffer. -/
theorem engineWindowInBuffer : Obligations.EngineWindowInBuffer := by
  intro s hs hact
  obtain ⟨n, hn, hlen, hpos⟩ := hs.inv.window hact
  have hbuf : Config.params.bufLen = Config.params.capacity * 24 + Config.params.resetSlotCount := rfl
  exact ⟨⟨n, hn, hlen⟩, by omega, by omega, hpos⟩

end Machine
end Sys2Proof
end

-- ==== Proofs: memory (spec/20_memory.md) ====
section
/-! The timing buffer in use. First the bytes of a slot; then that what the buffer and the registers become is
the same under every schedule of the other agents; then what the engine can read while an operation writes. -/

namespace Sys2Proof
namespace Machine

open Config (Params)

/-! ### The bytes of a slot (R60) -/

theorem byteOf_succ (v j : Nat) : byteOf v (j + 1) = byteOf (v / 256) j := by
  rw [byteOf, byteOf, Nat.pow_succ', Nat.div_div_eq_div_mul]

/-- The lowest `n` bytes of a number below `256 ^ n` give it back. -/
theorem littleValue_bytes (n v : Nat) (h : v < 256 ^ n) :
    littleValue ((List.range n).map (byteOf v)) = v := by
  induction n generalizing v with
  | zero => simpa [littleValue, eq_comm] using h
  | succ n ih =>
    have hv : v / 256 < 256 ^ n := Nat.div_lt_of_lt_mul (by rwa [← Nat.pow_succ'])
    have htail : (List.range n).map (byteOf v ∘ Nat.succ) = (List.range n).map (byteOf (v / 256)) :=
      List.map_congr_left fun j _ => byteOf_succ v j
    rw [List.range_succ_eq_map, List.map_cons, List.map_map, htail, littleValue, ih _ hv]
    simp [byteOf, Nat.mod_add_div]

/-- The engine undoes the order in which the mapping puts the bytes. -/
theorem slotOfBytes_bytesOfSlot (cfg : Params) (v : Nat) :
    slotOfBytes cfg (bytesOfSlot cfg v) = littleValue ((List.range (slotBytes cfg)).map (byteOf v)) := by
  cases h : cfg.byteOrder <;> simp [slotOfBytes, bytesOfSlot, h]

@[simp] theorem bytesOfSlot_length (cfg : Params) (v : Nat) :
    (bytesOfSlot cfg v).length = slotBytes cfg := by
  cases h : cfg.byteOrder <;> simp [bytesOfSlot, h]

/-- R9: a slot is a whole number of bytes. -/
theorem slotBytes_mul_eight {cfg : Params} (h : cfg.WellFormed) : slotBytes cfg * 8 = cfg.slotW := by
  obtain ⟨_, _, hw, _⟩ := h
  unfold slotBytes
  omega

/-- Settles O16: the bytes in little-endian order are the digits of the value in base 256, and the other order
is undone by the engine. -/
theorem slotBytesReadBack : Obligations.SlotBytesReadBack := by
  intro cfg v hcfg hv
  have hw := slotBytes_mul_eight hcfg
  refine ⟨by rw [bytesOfSlot_length, hw], ?_⟩
  rw [slotOfBytes_bytesOfSlot]
  apply littleValue_bytes
  calc v < 2 ^ (8 * slotBytes cfg) := by rwa [Nat.mul_comm, hw]
    _ = 256 ^ slotBytes cfg := Nat.pow_mul 2 8 _

/-! ### What the other agents do not touch (R58, R191) -/

/-- The state with everything blanked that another agent's step can change: `FSM`, the engine, the line, the
status output and the schedule. -/
def State.quiet (s : State) : State :=
  { s with
    fsm := .idle
    engActive := false
    engInst := 0
    engChan := 0
    engLen := 0
    engPos := 0
    line := []
    statusOut := none
    gaps := [] }

@[simp] theorem quiet_drive (s : State) (c : Status) : (s.drive c).quiet = s.quiet := rfl
@[simp] theorem quiet_setGaps (s : State) (gs : List (List AgentStep)) : (s.setGaps gs).quiet = s.quiet := rfl
@[simp] theorem quiet_setFsm (s : State) (f : Fsm) : (s.setFsm f).quiet = s.quiet := rfl
@[simp] theorem quiet_engStart (s : State) (inst : InstanceId) (ch : Chan) (n : Nat) :
    (s.engStart inst ch n).quiet = s.quiet := rfl
@[simp] theorem quiet_engStop (s : State) (inst : InstanceId) (ch : Chan) :
    (s.engStop inst ch).quiet = s.quiet := rfl
@[simp] theorem quiet_engRead (s : State) : s.engRead.quiet = s.quiet := rfl
@[simp] theorem quiet_setProgress (s : State) (p : Progress) :
    (s.setProgress p).quiet = s.quiet.setProgress p := rfl

@[simp] theorem quiet_agentStep (cfg : Params) (s : State) (a : AgentStep) :
    (s.agentStep cfg a).quiet = s.quiet := by
  rcases agentStep_cases cfg s a with h | h | ⟨id, h, _⟩ | ⟨_, _, h⟩ <;> rw [h]
  · simp
  · rcases onTransferComplete_cases cfg id s with ⟨_, h'⟩ | ⟨_, _, _, h'⟩ <;> simp [h']
  · simp

@[simp] theorem quiet_takeGap (cfg : Params) (s : State) : (s.takeGap cfg).quiet = s.quiet :=
  takeGap_keeps cfg (fun t => t.quiet = s.quiet) (fun _ _ h => by simpa using h) (fun _ _ h => h) s rfl

/-- A slot write looks at the buffer and the counters only. -/
@[simp] theorem quiet_advance (cfg : Params) (s : State) :
    (s.advance cfg).quiet = s.quiet.advance cfg := by
  have hp : s.quiet.progress = s.progress := rfl
  unfold State.advance
  rw [hp]
  split <;> rfl

/-- Slot writes with the other agents between them leave what slot writes alone would leave. -/
theorem quiet_runWrites (cfg : Params) (n : Nat) (s : State) :
    (s.runWrites cfg n).quiet = s.quiet.runWrites cfg n := by
  induction n generalizing s with
  | zero => rfl
  | succ n ih =>
    rw [State.runWrites, State.runWrites, ih, quiet_advance, quiet_takeGap,
      takeGap_of_gaps_nil cfg s.quiet rfl]

@[simp] theorem quiet_perform (cfg : Params) (p : Progress) (n : Nat) (s : State) :
    (s.perform cfg p n).quiet = s.quiet.perform cfg p n := by
  simp [State.perform, quiet_runWrites]

@[simp] theorem quiet_zeroTail (cfg : Params) (s : State) :
    (s.zeroTail cfg).quiet = s.quiet.zeroTail cfg := quiet_perform cfg _ _ s

/-- What an operation does to the buffer and the registers, the engine's requests and the status left out
(R130, R132, R135, R138, R150). -/
def blockEffect (cfg : Params) (i : Instr) (s : State) : State :=
  if statusIgnored (statusOf cfg i s) = true then s
  else match i with
    | .init h ch n => s.bindOutput h ch (clampCount cfg n)
    | .setled index r g b br => s.perform cfg (.led index 0 (index + 1) (encode24 cfg r g b br)) 24
    | .fillall r g b br => s.perform cfg (.led 0 0 s.alc (encode24 cfg r g b br)) (24 * s.alc)
    | .prep => s.zeroTail cfg
    | .showStrip => s.zeroTail cfg
    | .complete _ => s

theorem initStatus_not_ignored (cfg : Params) (n : Nat) : statusIgnored (initStatus cfg n) = false := by
  unfold initStatus
  split <;> rfl

/-- R182: the status output shows the operation's code when the operation has ended. -/
theorem Performed.statusOut {cfg : Params} {i : Instr} {s t : State} (h : Performed cfg s i t) :
    t.statusOut = some (statusOf cfg i s) := by
  cases h with
  | ignored | init | prep => rfl
  | setled index r g b br hi hx => simp [statusOf, setLedStatus, hi, hx]
  | fillall r g b br hi => simp [statusOf, fillAllStatus, hi]
  | showStrip t ht hi hs => simp [statusOf, showStatus, hi, hs]
  | complete id hg => simp [statusOf, hg]

/-- An operation leaves in the buffer and the registers what its effect leaves there. -/
theorem Performed.quiet {cfg : Params} {i : Instr} {s t : State} (h : Performed cfg s i t) :
    t.quiet = (blockEffect cfg i s).quiet := by
  have hst := h.statusOut
  cases h with
  | ignored i hg => simp [blockEffect, hg]
  | init hd ch n => simp [blockEffect, statusOf, initStatus_not_ignored]
  | showStrip t ht =>
    simp only [State.drive_statusOut, Option.some.injEq] at hst
    simp [blockEffect, ← hst, statusIgnored, ht]
  | _ =>
    simp only [State.drive_statusOut, Option.some.injEq] at hst
    simp [blockEffect, ← hst, statusIgnored]

/-- R181: no status depends on what is scheduled inside the operation. -/
@[simp] theorem statusOf_setGaps (cfg : Params) (i : Instr) (s : State) (gs : List (List AgentStep)) :
    statusOf cfg i (s.setGaps gs) = statusOf cfg i s := by cases i <;> rfl

/-- The effect of an operation on the buffer and the registers does not depend on the schedule. -/
theorem quiet_blockEffect_setGaps (cfg : Params) (i : Instr) (s : State) (gs : List (List AgentStep)) :
    (blockEffect cfg i (s.setGaps gs)).quiet = (blockEffect cfg i s).quiet := by
  unfold blockEffect
  rw [statusOf_setGaps]
  split
  · rfl
  · cases i with
    | init | complete => rfl
    | setled | fillall | prep | showStrip => simp

/-- Settles O30: the two runs have the same code and the same effect on all that the agents do not touch. -/
theorem interleavingLeavesOperationAlone : Obligations.InterleavingLeavesOperationAlone := by
  intro i s t u gs ht hu
  have pt := exec_performed ht
  have pu : Performed Config.params (s.setGaps gs) i u := exec_performed hu
  have hq : u.quiet = t.quiet := by rw [pu.quiet, pt.quiet, quiet_blockEffect_setGaps]
  have hc : u.statusOut = t.statusOut := by rw [pu.statusOut, pt.statusOut, statusOf_setGaps]
  simp only [State.quiet, State.mk.injEq, true_and, and_true] at hq
  obtain ⟨halc, hinit, hhnd, hchn, hbuf, hprogress, hagenda⟩ := hq
  exact ⟨hbuf, halc, hinit, hhnd, hchn, hprogress, hc, hagenda⟩

/-! ### What the engine reads while an operation writes (R61, R62, R64) -/

/-- From a line `ls ++ [r]` and position `p` on, the engine has appended to the open record the values of
consecutive slots, each one that `allowed` admits for its slot. -/
def EngineSaw (allowed : Nat → Slot → Prop) (ls : List (List Slot)) (r : List Slot) (p : Nat) (t : State) : Prop :=
  ∃ vs, t.line = ls ++ [r ++ vs] ∧ t.engPos = p + vs.length ∧ ∀ j v, vs[j]? = some v → allowed (p + j) v

/-- Every slot reads as a value that `allowed` admits for it. -/
def State.ReadsIn (allowed : Nat → Slot → Prop) (t : State) : Prop := ∀ a, allowed a (t.buf.read a)

section
variable {allowed : Nat → Slot → Prop} {ls : List (List Slot)} {r : List Slot} {p : Nat} {t : State}

/-- Before the first read nothing has been appended. -/
theorem EngineSaw.start (h : t.line = ls ++ [r]) : EngineSaw allowed ls r t.engPos t :=
  ⟨[], by simpa using h, rfl, by simp⟩

/-- What the engine has read shows in the line and the position alone. -/
theorem EngineSaw.congr {u : State} (h : EngineSaw allowed ls r p t) (hl : u.line = t.line)
    (hp : u.engPos = t.engPos) : EngineSaw allowed ls r p u := by
  obtain ⟨vs, hline, hpos, hvs⟩ := h
  exact ⟨vs, hl.trans hline, hp.trans hpos, hvs⟩

theorem EngineSaw.engRead (h : EngineSaw allowed ls r p t) (ha : t.ReadsIn allowed) :
    EngineSaw allowed ls r p t.engRead := by
  obtain ⟨vs, hline, hpos, hvs⟩ := h
  refine ⟨vs ++ [t.buf.read t.engPos], ?_, ?_, fun j v hj => ?_⟩
  · rw [State.engRead_line, hline, appendToLast_concat, List.append_assoc]
  · simp [hpos, Nat.add_assoc]
  · rcases Nat.lt_trichotomy j vs.length with hlt | heq | hgt
    · exact hvs j v (by rwa [List.getElem?_append_left hlt] at hj)
    · obtain rfl : t.buf.read t.engPos = v := by simpa [heq] using hj
      rw [heq, ← hpos]
      exact ha _
    · rw [List.getElem?_eq_none (by simpa using hgt)] at hj
      cases hj

theorem EngineSaw.agentStep (cfg : Params) (h : EngineSaw allowed ls r p t) (ha : t.ReadsIn allowed)
    (a : AgentStep) : EngineSaw allowed ls r p (t.agentStep cfg a) := by
  rcases agentStep_cases cfg t a with h' | h' | ⟨id, h', _⟩ | ⟨_, _, h'⟩ <;> rw [h']
  · exact h
  · exact h.congr rfl rfl
  · exact h.congr (by simp) (by simp)
  · exact h.engRead ha

theorem EngineSaw.takeGap (cfg : Params) (h : EngineSaw allowed ls r p t) (ha : t.ReadsIn allowed) :
    EngineSaw allowed ls r p (t.takeGap cfg) := by
  have hkeep := takeGap_keeps cfg (fun u => u.ReadsIn allowed ∧ EngineSaw allowed ls r p u)
    (fun u a hu => ⟨by simpa [State.ReadsIn] using hu.1, hu.2.agentStep cfg hu.1 a⟩) (fun _ _ hu => hu)
    t ⟨ha, h⟩
  exact hkeep.2

/-- The reads between slot writes see allowed values if the buffer holds allowed values before each write. -/
theorem EngineSaw.runWrites (cfg : Params) {n : Nat} (h : EngineSaw allowed ls r p t)
    (ha : ∀ m, m < n → (t.runWrites cfg m).ReadsIn allowed) :
    EngineSaw allowed ls r p (t.runWrites cfg n) := by
  induction n generalizing t with
  | zero => exact h
  | succ n ih =>
    have hgap : EngineSaw allowed ls r p (t.takeGap cfg) := h.takeGap cfg (ha 0 (Nat.succ_pos n))
    exact ih (hgap.congr (by simp) (by simp)) fun m hm => ha (m + 1) (Nat.succ_lt_succ hm)

end

/-- What a racing read of slot `a` may see: the value from before the operation or the one it writes. -/
def OldOrNew (cfg : Params) (i : Instr) (s : State) (a : Nat) (v : Slot) : Prop :=
  v = s.buf.read a ∨ writtenValue cfg i s a = some v

theorem encode24_getElem? (cfg : Params) (r g b br : Byte) (a : Nat) :
    (encode24 cfg r g b br)[a % 24]? = some ((encode24 cfg r g b br).getD (a % 24) 0) := by
  have hlt : a % 24 < (encode24 cfg r g b br).length := by
    rw [encode24_length]; exact Nat.mod_lt _ (by omega)
  rw [List.getD_eq_getElem _ _ hlt, List.getElem?_eq_getElem hlt]

/-- R132: SetLed writes every slot of its LED. -/
theorem writtenValue_setled {cfg : Params} {index a : Nat} {r g b br : Byte} {s : State} (hi : s.init = true)
    (hx : index < s.alc) (ha : a / 24 = index) : writtenValue cfg (.setled index r g b br) s a =
      some ((encode24 cfg r g b br).getD (a % 24) 0) := by
  rw [← encode24_getElem?]
  simp [writtenValue, statusOf, setLedStatus, statusIgnored, hi, Nat.not_le.2 hx, ha]

/-- R135: FillAll writes every slot of every active LED. -/
theorem writtenValue_fillall {cfg : Params} {a : Nat} {r g b br : Byte} {s : State} (hi : s.init = true)
    (ha : a / 24 < s.alc) : writtenValue cfg (.fillall r g b br) s a =
      some ((encode24 cfg r g b br).getD (a % 24) 0) := by
  rw [← encode24_getElem?]
  simp [writtenValue, statusOf, fillAllStatus, statusIgnored, hi, ha]

/-- R138: PrepareResetTail writes 0 from the tail's start to the buffer's end. -/
theorem writtenValue_prep {cfg : Params} {a : Nat} {s : State} (ha : tailStart s.alc ≤ a)
    (hb : a < cfg.bufLen) : writtenValue cfg .prep s a = some 0 := by
  simp [writtenValue, statusOf, statusIgnored, ha, hb]

section
variable {cfg : Params} {s : State} (hw : s.buf.wf = true)
include hw

/-- After some of the slot writes of SetLed each slot holds its old value or the one SetLed writes (R132). -/
theorem readsIn_setled {index m : Nat} {r g b br : Byte} (hi : s.init = true) (hx : index < s.alc)
    (hm : m < 24) : ((s.setProgress (.led index 0 (index + 1) (encode24 cfg r g b br))).runWrites cfg m).ReadsIn
      (OldOrNew cfg (.setled index r g b br) s) := by
  intro a
  rw [runWrites_led_read cfg m index 0 (index + 1) _ (s.setProgress _) (.inr rfl) (by omega) (by omega) (by omega) hw]
  split
  · exact .inr (writtenValue_setled hi hx (by omega))
  · exact .inl rfl

/-- After some of the slot writes of FillAll each slot holds its old value or the one FillAll writes (R135). -/
theorem readsIn_fillall {m : Nat} {r g b br : Byte} (hi : s.init = true) (hm : m < 24 * s.alc) :
    ((s.setProgress (.led 0 0 s.alc (encode24 cfg r g b br))).runWrites cfg m).ReadsIn
      (OldOrNew cfg (.fillall r g b br) s) := by
  intro a
  rw [runWrites_led_read cfg m 0 0 s.alc _ (s.setProgress _) (.inr rfl) (by omega) (by omega) (by omega) hw]
  split
  · exact .inr (writtenValue_fillall hi (by omega))
  · exact .inl rfl

/-- After some of the slot writes of PrepareResetTail each slot holds its old value or 0 (R138). -/
theorem readsIn_prep {m : Nat} (hm : m < tailCount cfg s.alc) :
    ((s.setProgress (.tail (tailStart s.alc))).runWrites cfg m).ReadsIn (OldOrNew cfg .prep s) := by
  intro a
  unfold tailCount at hm
  rw [runWrites_tail_read cfg m (tailStart s.alc) (s.setProgress _) (.inr rfl) (by omega) hw]
  split
  · exact .inr (writtenValue_prep (by omega) (by omega))
  · exact .inl rfl

end

/-- What the engine has appended after an operation performed while Transmitting. -/
theorem Performed.engineSaw {cfg : Params} {i : Instr} {s t : State} {ls : List (List Slot)} {r : List Slot}
    (h : Performed cfg s i t) (hs : s.fsm = .transmitting) (hw : s.buf.wf = true) (hl : s.line = ls ++ [r]) :
    EngineSaw (OldOrNew cfg i s) ls r s.engPos t := by
  have hstart : ∀ q, EngineSaw (OldOrNew cfg i s) ls r s.engPos (s.setProgress q) :=
    fun q => EngineSaw.start (t := s.setProgress q) hl
  cases h with
  | ignored | init | complete => exact (hstart s.progress).congr rfl rfl
  | setled index _ _ _ _ hi hx =>
    exact ((hstart _).runWrites cfg fun _ hm => readsIn_setled hw hi hx hm).congr rfl rfl
  | fillall _ _ _ _ hi =>
    exact ((hstart _).runWrites cfg fun _ hm => readsIn_fillall hw hi hm).congr rfl rfl
  | prep => exact ((hstart _).runWrites cfg fun _ hm => readsIn_prep hw hm).congr rfl rfl
  | showStrip _ _ _ hidle => simp [hs] at hidle

/-- Settles O31: an operation that takes effect while Transmitting is slot writes with reads between them, or no
slot write at all. -/
theorem racingReadsSeeOldOrNewValue : Obligations.RacingReadsSeeOldOrNewValue := by
  intro i s t ls r hs _ hw hl h
  exact (exec_performed h).engineSaw hs hw hl

end Machine
end Sys2Proof
end

-- ==== Proofs: encoding (spec/30_encoding.md) ====
section
/-! The words of the two ports. First the decoder read backwards: which word names which operation; then that
`encode` and `decode` undo each other up to the bits a format reserves; then what a word does when it arrives;
last that FillAll is a sequence of SetLeds (R95). -/

namespace Sys2Proof

/-! ### The decoder read backwards (R82 to R87) -/

/-- The word's opcode and fields are those of the operation; one case per row of R87. -/
inductive Names (w : Word) : Instr → Prop where
  | init (h : opcodeOf w = 0x1#4) :
      Names w (.init (w.extractLsb' 40 16) (w.extractLsb' 16 8) (w.extractLsb' 24 16).toNat)
  | setled (h : opcodeOf w = 0x2#4) :
      Names w (.setled (w.extractLsb' 40 16).toNat (w.extractLsb' 32 8) (w.extractLsb' 24 8)
        (w.extractLsb' 16 8) (w.extractLsb' 8 8))
  | fillall (h : opcodeOf w = 0x3#4) :
      Names w (.fillall (w.extractLsb' 32 8) (w.extractLsb' 24 8) (w.extractLsb' 16 8) (w.extractLsb' 8 8))
  | prep (h : opcodeOf w = 0x4#4) : Names w .prep
  | showStrip (h : opcodeOf w = 0x5#4) : Names w .showStrip
  | complete (h : opcodeOf w = 0x6#4) : Names w (.complete (w.extractLsb' 40 16))

theorem names_of_decodeFields {w : Word} {i : Instr} (h : decodeFields w = some i) : Names w i := by
  unfold decodeFields at h
  split_ifs at h with h1 h2 h3 h4 h5 h6 <;> cases h
  · exact .init h1
  · exact .setled h2
  · exact .fillall h3
  · exact .prep h4
  · exact .showStrip h5
  · exact .complete h6

theorem Names.decodeFields_eq {w : Word} {i : Instr} (h : Names w i) : decodeFields w = some i := by
  cases h <;> simp [decodeFields, *]

/-- R93: a word decodes to an operation exactly if it names it and the port is the operation's. -/
theorem decode_eq_ok_iff {p : Port} {w : Word} {i : Instr} : decode p w = .ok i ↔ Names w i ∧ i.port = p :=
  ⟨fun h => (decode_ok p w i h).imp_left names_of_decodeFields,
    fun ⟨hn, hp⟩ => decode_eq_ok p w i hn.decodeFields_eq hp⟩

/-- R81: bits 63:60 of a word are the opcode of the operation it names. -/
theorem Names.opcode {w : Word} {i : Instr} (h : Names w i) : opcodeOf w = i.opcode := by
  cases h <;> assumption

/-- R88: an operation read from a word is one that a word can carry. -/
theorem Names.wellFormed {w : Word} {i : Instr} (h : Names w i) : i.wellFormed = true := by
  cases h with
  | init | setled => exact decide_eq_true (BitVec.isLt _)
  | _ => rfl

/-! ### Fields and reserved bits -/

/-- Bits `lo` to `lo + n - 1` of the mask are all set. -/
abbrev Covers (m : Word) (lo n : Nat) : Prop := m.extractLsb' lo n = BitVec.allOnes n

theorem Covers.getLsbD {m : Word} {lo n k : Nat} (h : Covers m lo n) (hk : k < n) : m.getLsbD (lo + k) = true := by
  have hbit : (m.extractLsb' lo n).getLsbD k = true := by rw [h]; simpa using hk
  simpa [hk] using hbit

/-- Every format uses bits 63:60, the opcode (R81). -/
theorem Format.used_opcode (f : Format) : Covers f.used 60 4 := by cases f <;> decide

/-- A field does not depend on the bits outside a mask that covers it. -/
theorem Covers.field_eq {m v w : Word} {lo n : Nat} (h : Covers m lo n) (hvw : v &&& m = w &&& m) :
    v.extractLsb' lo n = w.extractLsb' lo n := by
  have hcut : ∀ x : Word, (x &&& m).extractLsb' lo n = x.extractLsb' lo n := fun x => by
    rw [BitVec.extractLsb'_and, h, BitVec.and_allOnes]
  rw [← hcut v, ← hcut w, hvw]

/-- A field put in its place has no bit outside a mask that covers it. -/
theorem Covers.place_and_not {m : Word} {lo n : Nat} (h : Covers m lo n) (v : BitVec n) :
    place v lo &&& ~~~ m = 0#64 := by
  apply BitVec.eq_of_getLsbD_eq
  intro k hk
  by_cases hin : lo ≤ k ∧ k - lo < n
  · have hm : m.getLsbD k = true := by simpa [Nat.add_sub_cancel' hin.1] using h.getLsbD hin.2
    simp [hm]
  · have hp : (place v lo).getLsbD k = false := by
      rw [place_getLsbD]
      by_cases hlo : k < lo
      · simp [hlo]
      · simp [BitVec.getLsbD_of_ge v (k - lo) (by omega)]
    simp [hp]

/-- A field put back where it was read: the word with all other bits cleared. -/
theorem place_extractLsb' (w : Word) (lo n : Nat) :
    place (w.extractLsb' lo n) lo = w &&& place (BitVec.allOnes n) lo := by
  apply BitVec.eq_of_getLsbD_eq
  intro k hk
  rw [BitVec.getLsbD_and, place_getLsbD, place_getLsbD]
  by_cases hlo : k < lo
  · simp [hlo]
  · simp [hk, hlo, Nat.add_sub_cancel' (Nat.le_of_not_lt hlo), Bool.and_comm]

/-! ### `encode` and `decode` -/

/-- R81: bits 63:60 of an operation's word are its opcode. -/
theorem opcodeOf_encode (i : Instr) : opcodeOf (encode i) = i.opcode := by
  cases i with
  | init h ch n => exact Laws.OpcodeBits.init h ch n
  | setled index r g b br => exact Laws.OpcodeBits.setled index r g b br
  | fillall r g b br => exact Laws.OpcodeBits.fillall r g b br
  | prep => exact Laws.OpcodeBits.prep
  | showStrip => exact Laws.OpcodeBits.showStrip
  | complete id => exact Laws.OpcodeBits.complete id

/-- The word of an operation names it: each field is read where it was put, and the others are 0 there. -/
theorem names_encode {i : Instr} (h : i.wellFormed = true) : Names (encode i) i := by
  have hop := opcodeOf_encode i
  cases i with
  | init hd ch n =>
    have hn : n < 65536 := of_decide_eq_true h
    have := Names.init hop
    simpa [encode, BitVec.extractLsb'_or, place_field_same, place_field_other, Nat.mod_eq_of_lt hn] using this
  | setled index r g b br =>
    have hx : index < 65536 := of_decide_eq_true h
    have := Names.setled hop
    simpa [encode, BitVec.extractLsb'_or, place_field_same, place_field_other, Nat.mod_eq_of_lt hx] using this
  | fillall r g b br =>
    have := Names.fillall hop
    simpa [encode, BitVec.extractLsb'_or, place_field_same, place_field_other] using this
  | prep => exact .prep hop
  | showStrip => exact .showStrip hop
  | complete id =>
    have := Names.complete hop
    simpa [encode, BitVec.extractLsb'_or, place_field_same, place_field_other] using this

/-- Settles O2: the word of an operation names it, and the port is the operation's own. -/
theorem decodeOfEncode : Obligations.DecodeOfEncode :=
  fun _ h => decode_eq_ok_iff.2 ⟨names_encode h, rfl⟩

/-- The operation a word names encodes to the word with the reserved bits cleared: opcode and fields go back
where they were read, and together they are all that the format uses (R82 to R86). -/
theorem Names.encode_eq {w : Word} {i : Instr} (h : Names w i) : encode i = w &&& i.format.used := by
  have hop : place i.opcode 60 = w &&& place (BitVec.allOnes 4) 60 := by
    rw [← h.opcode]; exact place_extractLsb' w 60 4
  cases h <;> simp only [Instr.opcode] at hop <;>
    simp only [encode, Instr.format, BitVec.ofNat_toNat, BitVec.setWidth_eq, hop, place_extractLsb',
      ← BitVec.and_or_distrib_left] <;>
    exact congrArg (w &&& ·) (by decide)

/-- Settles O3: the operation a word decodes to is the one it names, and the port is the operation's. -/
theorem encodeOfDecode : Obligations.EncodeOfDecode := by
  intro p w i h
  obtain ⟨hn, hp⟩ := decode_eq_ok_iff.1 h
  exact ⟨hn.wellFormed, hp, hn.encode_eq⟩

/-- R90: a word that agrees with another on the bits the format uses names the same operation. -/
theorem Names.congr {v w : Word} {i : Instr} (h : Names w i)
    (hvw : v &&& i.format.used = w &&& i.format.used) : Names v i := by
  have hf : ∀ lo n, Covers i.format.used lo n → w.extractLsb' lo n = v.extractLsb' lo n :=
    fun _ _ hc => (hc.field_eq hvw).symm
  have hop : opcodeOf v = opcodeOf w := (hf 60 4 i.format.used_opcode).symm
  cases h with simp only [Instr.format] at hf
  | init h =>
    rw [hf 40 16 (by decide), hf 16 8 (by decide), hf 24 16 (by decide)]
    exact .init (hop.trans h)
  | setled h =>
    rw [hf 40 16 (by decide), hf 32 8 (by decide), hf 24 8 (by decide), hf 16 8 (by decide), hf 8 8 (by decide)]
    exact .setled (hop.trans h)
  | fillall h =>
    rw [hf 32 8 (by decide), hf 24 8 (by decide), hf 16 8 (by decide), hf 8 8 (by decide)]
    exact .fillall (hop.trans h)
  | prep h => exact .prep (hop.trans h)
  | showStrip h => exact .showStrip (hop.trans h)
  | complete h =>
    rw [hf 40 16 (by decide)]
    exact .complete (hop.trans h)

/-- R90: the encoder writes 0 to every reserved bit, whatever the operands: each field it places is one that
the format's mask covers. -/
theorem encode_reserved (i : Instr) : encode i &&& ~~~ i.format.used = 0#64 := by
  cases i <;> simp (disch := decide) only
    [encode, Instr.format, BitVec.and_or_distrib_right, Covers.place_and_not, BitVec.or_zero]

/-- Settles O4: a word names its operation by the bits the format uses, and the encoder sets no others. -/
theorem reservedBitsIgnored : Obligations.ReservedBitsIgnored := by
  refine ⟨fun p w v i h hvw => ?_, encode_reserved⟩
  obtain ⟨hn, hp⟩ := decode_eq_ok_iff.1 h
  exact decode_eq_ok_iff.2 ⟨hn.congr hvw, hp⟩

/-- Settles O5: an operation that is not of the port is no answer of the decoder there. -/
theorem decodingIsTotalPerPort : Obligations.DecodingIsTotalPerPort := by
  constructor <;> intro w
  · rcases h : decode .cmd w with r | i
    · exact .inl ⟨r, rfl⟩
    · have hp := (decode_ok .cmd w i h).2
      cases i with
      | init hd ch n => exact .inr (.inl ⟨hd, ch, n, rfl⟩)
      | setled index r g b br => exact .inr (.inr (.inl ⟨index, r, g, b, br, rfl⟩))
      | fillall r g b br => exact .inr (.inr (.inr (.inl ⟨r, g, b, br, rfl⟩)))
      | prep => exact .inr (.inr (.inr (.inr (.inl rfl))))
      | showStrip => exact .inr (.inr (.inr (.inr (.inr rfl))))
      | complete id => cases hp
  · rcases h : decode .ntf w with r | i
    · exact .inl ⟨r, rfl⟩
    · have hp := (decode_ok .ntf w i h).2
      cases i with
      | complete id => exact .inr ⟨id, rfl⟩
      | _ => cases hp

namespace Machine

open Config (Params)

/-! ### A word arrives (R80, R89) -/

theorem deliver_ok {p : Port} {w : Word} {i : Instr} (h : decode p w = .ok i) (s : State) :
    deliver p w s = exec i s := by unfold deliver; rw [h]

theorem deliver_error {p : Port} {w : Word} {r : Reject} (h : decode p w = .error r) (s : State) :
    deliver p w s = .next (s.drive .ignBadOp) := by unfold deliver; rw [h]

/-- Settles O6: an operation's opcode is 1 to 6, and 6 exactly on the notification port, so the word is
rejected. -/
theorem reservedAndWrongPortIgnored : Obligations.ReservedAndWrongPortIgnored := by
  intro p w s h
  rcases hd : decode p w with r | i
  · exact deliver_error hd s
  · obtain ⟨hn, rfl⟩ := decode_eq_ok_iff.1 hd
    rw [hn.opcode] at h
    cases i <;> simp [Instr.opcode, Instr.port] at h

theorem step_cmdWord {s : State} {w : Word} {es : List Event} (h : s.agenda = .cmdWord w :: es) :
    step s = deliver .cmd w (s.setAgenda es) := by unfold step; rw [h]

theorem step_ntfWord {s : State} {w : Word} {es : List Event} (h : s.agenda = .agent (.ntfWord w) :: es) :
    step s = deliver .ntf w (s.setAgenda es) := by unfold step; rw [h]; rfl

/-- Settles O7: a step delivers the word, and the two answers of `deliver` are the two of the decoder. -/
theorem stepRunsDecodedWord : Obligations.StepRunsDecodedWord := by
  refine ⟨fun s w es i ha hd => ?_, fun s w es i ha hd => ?_, fun s w es r h => ?_⟩
  · exact (step_cmdWord ha).trans (deliver_ok hd _)
  · exact (step_ntfWord ha).trans (deliver_ok hd _)
  · rcases h with ⟨ha, hd⟩ | ⟨ha, hd⟩
    · exact (step_cmdWord ha).trans (deliver_error hd _)
    · exact (step_ntfWord ha).trans (deliver_error hd _)

/-! ### What the slot writes do not look at: the status output, and the last LED to come -/

/-- The completion handler drives its own code, whatever the status output shows (R153). -/
theorem onTransferComplete_drive (cfg : Params) (id : InstanceId) (s : State) (c : Status) :
    (s.drive c).onTransferComplete cfg id = s.onTransferComplete cfg id := rfl

/-- No step of another agent looks at the status output (R182). -/
theorem agentStep_drive (cfg : Params) (s : State) (c : Status) (a : AgentStep) :
    ((s.drive c).agentStep cfg a).drive c = (s.agentStep cfg a).drive c := by
  cases a with
  | ntfWord w =>
    simp only [State.agentStep, State.takeNotification]
    split <;> rfl
  | engRead =>
    simp only [State.agentStep, apply_ite (State.drive · c)]
    rfl
  | engNotify =>
    simp only [State.agentStep, apply_ite (State.drive · c), onTransferComplete_drive]
    rfl

theorem foldl_agentStep_drive (cfg : Params) (c : Status) (as : List AgentStep) (s : State) :
    (as.foldl (State.agentStep cfg) (s.drive c)).drive c = (as.foldl (State.agentStep cfg) s).drive c := by
  induction as generalizing s with
  | nil => rfl
  | cons a as ih =>
    rw [List.foldl_cons, List.foldl_cons, ← ih ((s.drive c).agentStep cfg a), agentStep_drive, ih]

theorem takeGap_drive (cfg : Params) (c : Status) (s : State) :
    ((s.drive c).takeGap cfg).drive c = (s.takeGap cfg).drive c := by
  unfold State.takeGap
  rw [State.drive_gaps]
  split
  · rfl
  · exact foldl_agentStep_drive cfg c _ (s.setGaps _)

theorem advance_drive (cfg : Params) (c : Status) (s : State) :
    (s.drive c).advance cfg = (s.advance cfg).drive c := by
  unfold State.advance
  rw [State.drive_progress]
  split <;> rfl

/-- The slot writes of an operation do not look at the status output. -/
theorem runWrites_drive (cfg : Params) (c : Status) (n : Nat) (s : State) :
    ((s.drive c).runWrites cfg n).drive c = (s.runWrites cfg n).drive c := by
  induction n generalizing s with
  | zero => rfl
  | succ n ih =>
    rw [State.runWrites, State.runWrites, ← ih (((s.drive c).takeGap cfg).advance cfg), ← advance_drive,
      takeGap_drive, advance_drive, ih]

theorem perform_drive (cfg : Params) (c : Status) (p : Progress) (n : Nat) (s : State) :
    ((s.drive c).perform cfg p n).drive c = (s.perform cfg p n).drive c :=
  congrArg (State.setProgress · .none) (runWrites_drive cfg c n (s.setProgress p))

theorem foldl_agentStep_setProgress (cfg : Params) (p : Progress) (as : List AgentStep) (s : State) :
    as.foldl (State.agentStep cfg) (s.setProgress p) =
      (as.foldl (State.agentStep cfg) s).setProgress p := by
  induction as generalizing s with
  | nil => rfl
  | cons a as ih => rw [List.foldl_cons, List.foldl_cons, agentStep_setProgress, ih]

/-- What happens at a boundary does not look at the counters (R33). -/
theorem takeGap_setProgress (cfg : Params) (s : State) (p : Progress) :
    (s.setProgress p).takeGap cfg = (s.takeGap cfg).setProgress p := by
  unfold State.takeGap
  rw [State.setProgress_gaps]
  split
  · rfl
  · exact foldl_agentStep_setProgress cfg p _ (s.setGaps _)

/-- One slot write of SetLed or FillAll, after its boundary: the slot, then the counters. -/
theorem runWrites_led_succ (cfg : Params) (s : State) (i k stop n : Nat) (out : List Slot) :
    (s.setProgress (.led i k stop out)).runWrites cfg (n + 1) =
      (((s.takeGap cfg).memWrite (ledSlot i k) (out.getD k 0)).setProgress
        ((Progress.led i k stop out).next cfg)).runWrites cfg n := by
  rw [State.runWrites, takeGap_setProgress]
  rfl

/-! ### FillAll LED by LED (R95) -/

theorem setProgress_setProgress (s : State) (p q : Progress) :
    (s.setProgress p).setProgress q = s.setProgress q := rfl

theorem runWrites_add (cfg : Params) (m n : Nat) (s : State) :
    s.runWrites cfg (m + n) = (s.runWrites cfg m).runWrites cfg n := by
  induction m generalizing s with
  | zero => rw [Nat.zero_add]; rfl
  | succ m ih => rw [Nat.succ_add, State.runWrites, ih]; rfl

/-- The rest of LED `i`'s slot writes is the same wherever the operation stops; only the counters after it tell
whether there is a next LED. -/
theorem runWrites_led_rest (cfg : Params) (s : State) (i stop n k : Nat) (out : List Slot) (h : k + n = 23) :
    (s.setProgress (.led i k stop out)).runWrites cfg (n + 1) =
      ((s.setProgress (.led i k (i + 1) out)).runWrites cfg (n + 1)).setProgress
        ((Progress.led i 23 stop out).next cfg) := by
  induction n generalizing k s with
  | zero =>
    obtain rfl : k = 23 := h
    rw [runWrites_led_succ, runWrites_led_succ]
    rfl
  | succ n ih =>
    have hnext : ∀ e, (Progress.led i k e out).next cfg = .led i (k + 1) e out := fun e => if_pos (by omega)
    rw [runWrites_led_succ, runWrites_led_succ, hnext, hnext, ih _ _ (by omega)]

/-- The slot writes of FillAll from LED `i` on are those of SetLed on LED `i`, then those from the next LED on. -/
theorem perform_led_succ (cfg : Params) (s : State) (i stop n : Nat) (out : List Slot)
    (h : i + (n + 1) = stop) :
    s.perform cfg (.led i 0 stop out) (24 * (n + 1)) =
      (s.perform cfg (.led i 0 (i + 1) out) 24).perform cfg (.led (i + 1) 0 stop out) (24 * n) := by
  have hfirst := runWrites_led_rest cfg s i stop 23 0 out rfl
  unfold State.perform
  rw [Nat.mul_succ, Nat.add_comm, runWrites_add, hfirst]
  cases n with
  | zero => rw [setProgress_setProgress]; rfl
  | succ n =>
    have hlt : i + 1 < stop := by omega
    have hnext : (Progress.led i 23 stop out).next cfg = .led (i + 1) 0 stop out := by
      simp [Progress.next, hlt]
    rw [hnext, setProgress_setProgress]

theorem exec_setled {s : State} (index : Nat) (r g b br : Byte) (hi : s.init = true) (hx : index < s.alc)
    (hf : s.activeFault Config.params = none) :
    exec (.setled index r g b br) s = .next ((s.perform Config.params
      (.led index 0 (index + 1) (encode24 Config.params r g b br)) 24).drive .ok) := by
  simp [exec, execSetLed, setLedOp, hi, hf, Nat.not_le.2 hx]

theorem exec_fillall {s : State} (r g b br : Byte) (hi : s.init = true)
    (hf : s.activeFault Config.params = none) :
    exec (.fillall r g b br) s = .next ((s.perform Config.params
      (.led 0 0 s.alc (encode24 Config.params r g b br)) (24 * s.alc)).drive .ok) := by
  simp [exec, execFillAll, fillAllOp, hi, hf]

/-- Slot writes bring the block into no fault it was not in (R34, R42). -/
theorem perform_activeFault (cfg : Params) (p : Progress) (n : Nat) (s : State)
    (h : s.activeFault cfg = none) : (s.perform cfg p n).activeFault cfg = none := by
  unfold State.activeFault at h ⊢
  rw [perform_alc]
  split_ifs at h ⊢
  exact perform_engineFault cfg p n s h

/-- The faults do not look at the status output. -/
@[simp] theorem drive_activeFault (cfg : Params) (s : State) (c : Status) :
    (s.drive c).activeFault cfg = s.activeFault cfg := rfl

/-- SetLeds of the last `n` active LEDs, one after another, leave what the slot writes of FillAll on these LEDs
leave, the status output apart. -/
theorem execAll_setleds (r g b br : Byte) (n i : Nat) (s : State) (hi : s.init = true)
    (hf : s.activeFault Config.params = none) (hp : s.progress = .none) (hn : i + n = s.alc) :
    ∃ t, execAll ((List.range' i n).map fun j => .setled j r g b br) s = .next t ∧
      t.drive .ok = (s.perform Config.params
        (.led i 0 s.alc (encode24 Config.params r g b br)) (24 * n)).drive .ok := by
  induction n generalizing i s with
  | zero => exact ⟨s, rfl, by cases s; cases hp; rfl⟩
  | succ n ih =>
    have hset := exec_setled i r g b br hi (by omega) hf
    have hfault := perform_activeFault _ (.led i 0 (i + 1) (encode24 Config.params r g b br)) 24 s hf
    obtain ⟨t, ht, htd⟩ := ih (i + 1) ((s.perform Config.params
      (.led i 0 (i + 1) (encode24 Config.params r g b br)) 24).drive .ok)
      (by simpa using hi) (by simpa using hfault) (by simp) (by simp; omega)
    refine ⟨t, ?_, ?_⟩
    · simp only [List.range'_succ, List.map_cons, execAll, hset, ht]
    · rw [htd, perform_drive, perform_led_succ _ _ _ _ _ _ hn]
      simp

/-- Settles O29: FillAll's slot writes, LED by LED, are those of the SetLeds, and no one looks at the status
that each SetLed shows in between. -/
theorem fillAllIsSetLedSequence : Obligations.FillAllIsSetLedSequence := by
  intro r g b br s hi hf hp
  obtain ⟨t, ht, htd⟩ := execAll_setleds r g b br s.alc 0 s hi hf hp (Nat.zero_add _)
  rw [← List.range_eq_range'] at ht
  exact ⟨t, ht, (exec_fillall r g b br hi hf).trans (congrArg _ htd.symm)⟩

end Machine
end Sys2Proof
end

-- ==== Proofs: encoder (spec/40_encoder.md) ====
section
/-! The Encoder and the colour operation that uses it. First the scaling; then one slot per bit and one channel
per eight slots, forward and read back; then that SetLed writes the same 24 values to every LED. -/

namespace Sys2Proof
namespace Machine

open Config (Params)

/-! ### Scaling by the brightness (R110, R111) -/

/-- R110: up to full brightness the quotient is at most the channel value. -/
theorem mul_div_hundred_le (c : Nat) {br : Nat} (hb : br ≤ 100) : c * br / 100 ≤ c :=
  Nat.div_le_of_le_mul (by rw [Nat.mul_comm 100]; exact Nat.mul_le_mul_left c hb)

/-- R110: up to full brightness the quotient of an 8-bit channel is below 256, so nothing is cut off. -/
theorem scale_eq_div {c br : Nat} (hc : c ≤ 255) (hb : br ≤ 100) : scale c br = c * br / 100 :=
  Nat.mod_eq_of_lt (Nat.lt_succ_of_le ((mul_div_hundred_le c hb).trans hc))

theorem scale_hundred {c : Nat} (hc : c ≤ 255) : scale c 100 = c := by
  rw [scale_eq_div hc (Nat.le_refl _), Nat.mul_div_cancel c (by omega)]

@[simp] theorem scale_zero_brightness (c : Nat) : scale c 0 = 0 := by simp [scale]

@[simp] theorem scale_zero_channel (br : Nat) : scale 0 br = 0 := by simp [scale]

theorem scale_le {c br : Nat} (hc : c ≤ 255) (hb : br ≤ 100) : scale c br ≤ c := by
  rw [scale_eq_div hc hb]
  exact mul_div_hundred_le c hb

/-- R110: within the contract scaling is monotone in the channel and in the brightness. -/
theorem scale_mono {c d br bs : Nat} (hcd : c ≤ d) (hd : d ≤ 255) (hb : br ≤ bs) (hbs : bs ≤ 100) :
    scale c br ≤ scale d bs := by
  rw [scale_eq_div (hcd.trans hd) (hb.trans hbs), scale_eq_div hd hbs]
  exact Nat.div_le_div_right (Nat.mul_le_mul hcd hb)

/-- Settles O11: the definition is the formula, and up to brightness 100 its `mod` changes nothing. -/
theorem scaleTruncates : Obligations.ScaleTruncates :=
  ⟨fun _ _ => rfl, fun _ _ => scale_eq_div, fun _ => scale_hundred, scale_zero_brightness, scale_zero_channel,
    rfl, rfl, rfl, rfl, rfl, fun _ _ => scale_le,
    fun _ _ _ hcd hd hb => scale_mono hcd hd (Nat.le_refl _) hb,
    fun _ _ _ hc hb hbs => scale_mono (Nat.le_refl _) hc hb hbs⟩

/-- R111: a quotient of at most 650 is cut to 8 bits by taking off 0, 256 or 512. -/
theorem scale_eq_div_less {c br : Nat} (hq : c * br / 100 ≤ 650) :
    scale c br = c * br / 100 ∨ scale c br + 256 = c * br / 100 ∨ scale c br + 512 = c * br / 100 := by
  unfold scale
  omega

/-- Settles O12: the product of two 8-bit numbers bounds the quotient by 650. -/
theorem scaleAboveContract : Obligations.ScaleAboveContract := by
  refine ⟨rfl, rfl, rfl, fun c br hc hb => ?_⟩
  have hprod : c * br ≤ 65025 := Nat.mul_le_mul hc hb
  have hquot : c * br / 100 ≤ 650 := Nat.div_le_div_right hprod
  exact ⟨hprod, hquot, scale_lt c br, scale_eq_div_less hquot⟩

/-! ### One slot per bit (R112) -/

/-- R9, R112: neither bit is coded as 0, the value of a slot that is low. -/
theorem bitToDuty_ne_zero {cfg : Params} (h : cfg.WellFormed) (bit : Bool) : bitToDuty cfg bit ≠ 0 := by
  obtain ⟨_, _, _, _, ⟨hzero, _⟩, ⟨hone, _⟩, _⟩ := h
  cases bit
  · exact hzero
  · exact hone

/-- R9, R112: a coded bit fits its slot. -/
theorem bitToDuty_lt {cfg : Params} (h : cfg.WellFormed) (bit : Bool) : bitToDuty cfg bit < 2 ^ cfg.slotW := by
  obtain ⟨_, _, _, _, ⟨_, hzero⟩, ⟨_, hone⟩, _⟩ := h
  cases bit
  · exact hzero
  · exact hone

/-- R9: the two duty values differ, so a coded bit can be told from the other. -/
theorem bitToDuty_true_ne_false {cfg : Params} (h : cfg.WellFormed) :
    bitToDuty cfg true ≠ bitToDuty cfg false := by
  obtain ⟨_, _, _, _, _, _, hne⟩ := h
  exact hne

/-- Settles O13: the two values are the two cases of `bitToDuty`, the rest is what R9 says of them. -/
theorem bitDutyValues : Obligations.BitDutyValues := fun _ h =>
  ⟨rfl, rfl, fun bit => ⟨bitToDuty_ne_zero h bit, bitToDuty_lt h bit⟩, bitToDuty_true_ne_false h⟩

/-- R121: a coded bit reads back. -/
theorem slotBit_bitToDuty {cfg : Params} (h : cfg.WellFormed) (bit : Bool) :
    slotBit cfg (bitToDuty cfg bit) = some bit := by
  cases bit
  · exact (if_neg (bitToDuty_true_ne_false h).symm).trans (if_pos rfl)
  · exact if_pos rfl

/-! ### Eight slots per channel, three channels per colour (R113) -/

/-- R113: slot `k` of a channel is bit `7 - k`. -/
theorem channelSlots_getElem? (cfg : Params) (v : Nat) {k : Nat} (hk : k < 8) :
    (channelSlots cfg v)[k]? = some (bitToDuty cfg (v.testBit (7 - k))) := by
  simp [channelSlots, hk]

/-- A channel of which all eight bits are the same is eight times the same slot. -/
theorem channelSlots_eq_replicate (cfg : Params) {v : Nat} {bit : Bool} (h : ∀ j < 8, v.testBit j = bit) :
    channelSlots cfg v = List.replicate 8 (bitToDuty cfg bit) := by
  refine List.eq_replicate_iff.2 ⟨channelSlots_length cfg v, fun x hx => ?_⟩
  obtain ⟨k, _, rfl⟩ := List.mem_map.1 hx
  rw [h (7 - k) (by omega)]

/-- R113: the channels are emitted green, red, blue, most significant bit first. -/
theorem encode24_channels (cfg : Params) (r g b br : Byte) {k : Nat} (hk : k < 8) :
    (encode24 cfg r g b br)[k]? = some (bitToDuty cfg ((scale g.toNat br.toNat).testBit (7 - k))) ∧
    (encode24 cfg r g b br)[8 + k]? = some (bitToDuty cfg ((scale r.toNat br.toNat).testBit (7 - k))) ∧
    (encode24 cfg r g b br)[16 + k]? = some (bitToDuty cfg ((scale b.toNat br.toNat).testBit (7 - k))) := by
  simp only [← channelSlots_getElem? cfg _ hk, encode24]
  refine ⟨?_, ?_, ?_⟩
  · rw [List.append_assoc, List.getElem?_append_left (by simpa using hk)]
  · rw [List.getElem?_append_left (by simp; omega), List.getElem?_append_right (by simp)]
    simp
  · rw [List.getElem?_append_right (by simp)]
    simp

/-- A colour whose three scaled channels are one value with eight equal bits is 24 times the same slot. -/
theorem encode24_eq_replicate (cfg : Params) {r g b br : Byte} {v : Nat} {bit : Bool}
    (hr : scale r.toNat br.toNat = v) (hg : scale g.toNat br.toNat = v) (hb : scale b.toNat br.toNat = v)
    (h : ∀ j < 8, v.testBit j = bit) :
    encode24 cfg r g b br = List.replicate 24 (bitToDuty cfg bit) := by
  rw [encode24, hr, hg, hb, channelSlots_eq_replicate cfg h, List.replicate_append_replicate,
    List.replicate_append_replicate]

/-- R112, R113: no slot of a colour is low. -/
theorem zero_notMem_encode24 {cfg : Params} (h : cfg.WellFormed) (r g b br : Byte) :
    0 ∉ encode24 cfg r g b br := by
  intro hmem
  rcases encode24_mem cfg r g b br 0 hmem with hz | ho
  · exact bitToDuty_ne_zero h false hz.symm
  · exact bitToDuty_ne_zero h true ho.symm

/-- Settles O14: each element lies in one of the three channels, and the corner cases are colours whose scaled
channels are all 0 or all 255. -/
theorem encodeOrderGreenRedBlue : Obligations.EncodeOrderGreenRedBlue := by
  intro cfg r g b br
  have hzero : ∀ j < 8, (0 : Nat).testBit j = false := fun j _ => Nat.zero_testBit j
  have hblack : scale (0#8).toNat br.toNat = 0 := scale_zero_channel br.toNat
  refine ⟨encode24_length cfg r g b br, fun k hk => encode24_channels cfg r g b br hk, ?_, ?_, ?_,
    fun h => zero_notMem_encode24 h r g b br⟩
  · exact encode24_eq_replicate cfg (scale_zero_brightness _) (scale_zero_brightness _)
      (scale_zero_brightness _) hzero
  · exact encode24_eq_replicate cfg hblack hblack hblack hzero
  · exact encode24_eq_replicate cfg (v := 255) (bit := true) rfl rfl rfl (by decide)

/-! ### Reading a colour back (R121) -/

/-- One more bit at the low end. -/
theorem bitsValue_concat (bits : List Bool) (bit : Bool) :
    bitsValue (bits ++ [bit]) = 2 * bitsValue bits + bit.toNat := by
  simp [bitsValue]

/-- The lowest `n` bits of a number below `2 ^ n`, most significant first, give it back. -/
theorem bitsValue_testBit (n v : Nat) (h : v < 2 ^ n) :
    bitsValue ((List.range n).map fun k => v.testBit (n - 1 - k)) = v := by
  induction n generalizing v with
  | zero => simpa [bitsValue, eq_comm] using h
  | succ n ih =>
    have hhalf : v / 2 < 2 ^ n := Nat.div_lt_of_lt_mul (by rwa [← Nat.pow_succ'])
    have hhigh : (List.range n).map (fun k => v.testBit (n - k)) =
        (List.range n).map fun k => (v / 2).testBit (n - 1 - k) := by
      refine List.map_congr_left fun k hk => ?_
      have hk : k < n := List.mem_range.1 hk
      rw [Nat.testBit_div_two, show n - 1 - k + 1 = n - k by omega]
    rw [List.range_succ, List.map_append, Nat.add_sub_cancel, hhigh, List.map_singleton, bitsValue_concat,
      ih _ hhalf, Nat.sub_self, Nat.toNat_testBit, Nat.pow_zero, Nat.div_one, Nat.div_add_mod]

/-- R121: coded bits read back one by one. -/
theorem mapM_slotBit_map_bitToDuty {cfg : Params} (h : cfg.WellFormed) (bits : List Bool) :
    (bits.map (bitToDuty cfg)).mapM (slotBit cfg) = some bits := by
  induction bits with
  | nil => rfl
  | cons bit bits ih => rw [List.map_cons, List.mapM_cons, slotBit_bitToDuty h, ih]; rfl

/-- R121: the eight slots of a channel read back as the scaled value they were made from. -/
theorem readChannel_channelSlots {cfg : Params} (h : cfg.WellFormed) {v : Nat} (hv : v < 256) :
    readChannel cfg (channelSlots cfg v) = some v := by
  have hbits : channelSlots cfg v =
      ((List.range 8).map fun k => v.testBit (7 - k)).map (bitToDuty cfg) := by
    rw [List.map_map]; rfl
  rw [readChannel, hbits, mapM_slotBit_map_bitToDuty h]
  exact congrArg some (bitsValue_testBit 8 v hv)

/-- R121: three channels of eight slots each are read one after another. -/
theorem readLed_append (cfg : Params) {x y z : List Slot} {g r b : Nat} (hx : x.length = 8) (hy : y.length = 8)
    (hz : z.length = 8) (hg : readChannel cfg x = some g) (hr : readChannel cfg y = some r)
    (hb : readChannel cfg z = some b) : readLed cfg (x ++ y ++ z) = some (g, r, b) := by
  have h0 : (x ++ y ++ z).take 8 = x := by rw [List.append_assoc]; exact List.take_left' hx
  have h8 : ((x ++ y ++ z).drop 8).take 8 = y := by
    rw [List.append_assoc, List.drop_left' hx]; exact List.take_left' hy
  have h16 : ((x ++ y ++ z).drop 16).take 8 = z := by
    rw [List.drop_left' (by simp [hx, hy])]; exact List.take_of_length_le hz.le
  rw [readLed, h0, h8, h16, hg, hr, hb]

/-- Settles O15: each channel reads back as its scaled value, which is below 256. -/
theorem encodeReadsBack : Obligations.EncodeReadsBack := by
  intro cfg r g b br h
  have hread := fun c => readChannel_channelSlots h (scale_lt c br.toNat)
  exact readLed_append cfg (channelSlots_length _ _) (channelSlots_length _ _) (channelSlots_length _ _)
    (hread _) (hread _) (hread _)

/-! ### The colour does not depend on the LED (R115) -/

/-- R132: after a SetLed that takes effect slot `k` of its LED reads as element `k` of Encode24, whatever the
other agents did meanwhile. -/
theorem exec_setled_read {index k : Nat} {r g b br : Byte} {s t : State} (hi : s.init = true)
    (hx : index < s.alc) (hw : s.buf.wf = true) (h : exec (.setled index r g b br) s = .next t) (hk : k < 24) :
    t.buf.read (ledSlot index k) = (encode24 Config.params r g b br).getD k 0 := by
  cases exec_performed h with
  | ignored _ hg => simp [statusOf, setLedStatus, statusIgnored, hi, Nat.not_le.2 hx] at hg
  | setled =>
    have hmod : ledSlot index k % 24 = k := by unfold ledSlot; omega
    rw [State.drive_buf, perform_led_read _ _ _ _ hw, if_pos (by unfold ledSlot; omega), hmod]

/-- Settles O28: both slots read as the same element of Encode24. -/
theorem colourIndependentOfIndex : Obligations.ColourIndependentOfIndex := by
  intro i j r g b br s t u hinit hi hj hw ht hu k hk
  rw [exec_setled_read hinit hi hw ht hk, exec_setled_read hinit hj hw hu hk]

end Machine
end Sys2Proof
end

-- ==== Proofs: strip buffer (spec/41_stripbuffer.md) ====
section
/-! The operations of the strip buffer and the history they leave. First what an operation made of slot writes
leaves alone; then what each of the four operations writes; then that the buffer is what the history since reset
makes of it (R140). -/

namespace Sys2Proof
namespace Machine

open Config (Params)

/-! ### What slot writes leave alone (R41, R58) -/

/-- With no other agent inside, what every slot write keeps a run of them keeps. -/
theorem runWrites_keeps_of_gaps_nil (cfg : Params) (P : State → Prop) (hw : ∀ s, P s → P (s.advance cfg))
    (n : Nat) {s : State} (hg : s.gaps = []) (h : P s) : P (s.runWrites cfg n) := by
  induction n generalizing s with
  | zero => exact h
  | succ n ih =>
    rw [State.runWrites, takeGap_of_gaps_nil cfg s hg]
    exact ih ((advance_gaps cfg s).trans hg) (hw s h)

/-- `FSM` and what the engine moves are the same in both states. -/
def SameEngine (s t : State) : Prop :=
  t.fsm = s.fsm ∧ t.engActive = s.engActive ∧ t.engPos = s.engPos ∧ t.line = s.line

/-- With no other agent inside, slot writes touch neither `FSM` nor the engine. -/
theorem perform_sameEngine (cfg : Params) (p : Progress) (n : Nat) {s : State} (hg : s.gaps = []) :
    SameEngine s (s.perform cfg p n) :=
  runWrites_keeps_of_gaps_nil cfg (SameEngine s) (fun _ h => by simpa [SameEngine] using h) n
    (s := s.setProgress p) hg ⟨rfl, rfl, rfl, rfl⟩

/-- What an operation of `n` slot writes that took effect leaves besides the buffer: the registers, the engine's
latched fields and the agenda as they were, `n` entries of the schedule used up, the code `OK` (R41, R182). -/
def OnlySlotsWritten (n : Nat) (s t : State) : Prop :=
  t.alc = s.alc ∧ t.init = s.init ∧ t.hnd = s.hnd ∧ t.chn = s.chn ∧ t.progress = .none ∧
    t.engInst = s.engInst ∧ t.engChan = s.engChan ∧ t.engLen = s.engLen ∧ t.agenda = s.agenda ∧
    t.gaps = s.gaps.drop n ∧ t.statusOut = some .ok ∧ (s.gaps = [] → SameEngine s t)

theorem perform_onlySlotsWritten (cfg : Params) (p : Progress) (n : Nat) (s : State) :
    OnlySlotsWritten n s ((s.perform cfg p n).drive .ok) := by
  have heng : s.gaps = [] → SameEngine s ((s.perform cfg p n).drive .ok) := perform_sameEngine cfg p n
  simpa [OnlySlotsWritten] using heng

/-! ### The four operations -/

/-- Settles O17: Init is its four register writes and its status. -/
theorem initBindsAndClamps : Obligations.InitBindsAndClamps := fun _ _ _ _ => rfl

/-- Settles O18: the 24 slot writes go to the LED's group, and are all that SetLed does. -/
theorem setLedWritesItsGroup : Obligations.SetLedWritesItsGroup := by
  intro index r g b br s hi hx hf hw
  have hex := exec_setled index r g b br hi hx hf
  refine ⟨_, hex, fun k hk => exec_setled_read hi hx hw hex hk, fun a ha => ?_,
    perform_onlySlotsWritten _ _ _ s⟩
  have hout : ¬ (24 * index ≤ a ∧ a < 24 * index + 24) := fun ⟨hlo, hhi⟩ =>
    ha (a - 24 * index) (by omega) (by unfold ledSlot; omega)
  rw [State.drive_buf, perform_led_read _ _ _ _ hw, if_neg hout]

/-- Settles O19: the `24 * ALC` slot writes go to the groups below `ALC`, and are all that FillAll does. -/
theorem fillAllWritesActiveGroups : Obligations.FillAllWritesActiveGroups := by
  intro r g b br s hi hf hw
  refine ⟨_, exec_fillall r g b br hi hf, fun i k hx hk => ?_, fun a ha => ?_,
    perform_onlySlotsWritten _ _ _ s⟩
  · have hmod : ledSlot i k % 24 = k := by unfold ledSlot; omega
    rw [State.drive_buf, perform_fill_read _ _ _ _ hw, if_pos (by unfold ledSlot; omega), hmod]
  · rw [State.drive_buf, perform_fill_read _ _ _ _ hw, if_neg (by unfold tailStart at ha; omega)]

theorem exec_prep {s : State} (hf : s.engineFault Config.params = none) :
    exec .prep s = .next ((s.zeroTail Config.params).drive .ok) := by
  simp [exec, execPrep, prepOp, hf]

/-- Settles O20: the slot writes zero the slots from the tail's start on, and are all that PrepareResetTail
does. -/
theorem prepZeroesTail : Obligations.PrepZeroesTail := by
  intro s hf hw
  refine ⟨_, exec_prep hf, fun a hlo hhi => ?_, fun a ha => ?_, perform_onlySlotsWritten _ _ _ s⟩
  · rw [State.drive_buf, zeroTail_read _ _ hw, if_pos ⟨hlo, hhi⟩]
  · rw [State.drive_buf, zeroTail_read _ _ hw, if_neg (by unfold tailStart at ha; omega)]

/-! ### From the invariants no operation stops (R53, R180) -/

theorem Inv.engineFault {cfg : Params} {s : State} (h : Inv cfg s) : s.engineFault cfg = none := by
  unfold State.engineFault
  split_ifs with hact hlen hline
  · obtain ⟨r, hr, _⟩ := h.record hact
    simp [hline] at hr
  · rfl
  · obtain ⟨n, hn, hwin, _⟩ := h.window hact
    exact absurd (by unfold Params.bufLen; omega) hlen
  · rfl

theorem Inv.activeFault {cfg : Params} {s : State} (h : Inv cfg s) : s.activeFault cfg = none :=
  (if_pos h.alcBound).trans h.engineFault

/-- R180: from a state with the invariants every operation answers a next state. -/
theorem Inv.exec_next {s : State} (h : Inv Config.params s) (i : Instr) : ∃ t, exec i s = .next t := by
  cases i with
  | init | complete => exact ⟨_, rfl⟩
  | setled =>
    simp only [exec, execSetLed, setLedOp, h.activeFault]
    split_ifs <;> exact ⟨_, rfl⟩
  | fillall =>
    simp only [exec, execFillAll, fillAllOp, h.activeFault]
    split_ifs <;> exact ⟨_, rfl⟩
  | prep => exact ⟨_, exec_prep h.engineFault⟩
  | showStrip =>
    simp only [exec, execShow, showOp, h.activeFault]
    split_ifs <;> exact ⟨_, rfl⟩

/-- With nothing scheduled inside operations nothing is scheduled after one. -/
theorem Performed.gaps_nil {cfg : Params} {i : Instr} {s t : State} (h : Performed cfg s i t)
    (hg : s.gaps = []) : t.gaps = [] := by
  cases h with
  | showStrip t ht => simp [ht, State.zeroTail, hg]
  | _ => simp [State.zeroTail, hg]

/-! ### The history in terms of the state it has made (R140) -/

section
variable {cfg : Params} {is : List Instr} {s t : State} {i : Instr}

theorem histHandle_cons_of_ne_init (hne : ∀ hd ch n, i ≠ .init hd ch n) :
    histHandle (i :: is) = histHandle is := by
  cases i with
  | init hd ch n => exact absurd rfl (hne hd ch n)
  | _ => rfl

theorem histCount_cons_of_ne_init (hne : ∀ hd ch n, i ≠ .init hd ch n) :
    histCount cfg (i :: is) = histCount cfg is := by
  cases i with
  | init hd ch n => exact absurd rfl (hne hd ch n)
  | _ => rfl

/-- An operation other than Init leaves the binding and the count of the history, so a state with the same
registers agrees as soon as `FSM` and the slots do. -/
theorem Agrees.cons (h : Agrees cfg is s) (hne : ∀ hd ch n, i ≠ .init hd ch n) (hinit : t.init = s.init)
    (hhnd : t.hnd = s.hnd) (halc : t.alc = s.alc)
    (hfsm : t.fsm = .transmitting ↔ histBusy cfg (i :: is) = true)
    (hbuf : ∀ a, t.buf.read a = histSlot cfg (i :: is) a) : Agrees cfg (i :: is) t where
  init := by rw [hinit, h.init, histHandle_cons_of_ne_init hne]
  hnd := by rw [hhnd, histHandle_cons_of_ne_init hne]; exact h.hnd
  alc := by rw [halc, h.alc, histCount_cons_of_ne_init hne]
  fsm := hfsm
  buf := hbuf

/-- Slot writes with no other agent between them leave `FSM` too, so the state agrees as soon as the slots do. -/
theorem Agrees.slotsWritten {n : Nat} (h : Agrees cfg is s) (hne : ∀ hd ch n, i ≠ .init hd ch n)
    (hg : s.gaps = []) (hw : OnlySlotsWritten n s t) (hbusy : histBusy cfg (i :: is) = histBusy cfg is)
    (hbuf : ∀ a, t.buf.read a = histSlot cfg (i :: is) a) : Agrees cfg (i :: is) t := by
  obtain ⟨halc, hinit, hhnd, _, _, _, _, _, _, _, _, hengine⟩ := hw
  obtain ⟨hfsm, _⟩ := hengine hg
  exact h.cons hne hinit hhnd halc (by rw [hfsm, hbusy]; exact h.fsm) hbuf

theorem Agrees.histHandle_eq (h : Agrees cfg is s) (hi : s.init = true) : histHandle is = some s.hnd := by
  obtain ⟨hd, hhd⟩ := Option.isSome_iff_exists.1 (h.init.symm.trans hi)
  rw [hhd, h.hnd hd hhd]

theorem Agrees.histBusy_eq_false_iff (h : Agrees cfg is s) : histBusy cfg is = false ↔ s.fsm = .idle := by
  rw [← Bool.not_eq_true, ← h.fsm]
  cases s.fsm <;> simp

/-- R153: a transfer goes on after a completion exactly if the completion is not for the bound instance. -/
theorem Agrees.histBusy_complete (h : Agrees cfg is s) (hinv : Inv cfg s) (id : InstanceId) :
    histBusy cfg (.complete id :: is) = true ↔ s.fsm = .transmitting ∧ id ≠ cfg.instanceOf s.hnd := by
  simp only [histBusy, Bool.and_eq_true, decide_eq_true_eq, ← h.fsm]
  refine and_congr_right fun hs => ?_
  rw [h.histHandle_eq (hinv.fsmInit hs)]
  simp [eq_comm]

theorem Agrees.histSlot_setled (h : Agrees cfg is s) (index : Nat) (r g b br : Byte) (a : Nat) :
    histSlot cfg (.setled index r g b br :: is) a =
      if s.init = true ∧ index < s.alc ∧ a / 24 = index then (encode24 cfg r g b br).getD (a % 24) 0
      else s.buf.read a := by
  rw [histSlot, ← h.init, ← h.alc, ← h.buf]

theorem Agrees.histSlot_fillall (h : Agrees cfg is s) (r g b br : Byte) (a : Nat) :
    histSlot cfg (.fillall r g b br :: is) a =
      if s.init = true ∧ a / 24 < s.alc then (encode24 cfg r g b br).getD (a % 24) 0
      else s.buf.read a := by
  rw [histSlot, ← h.init, ← h.alc, ← h.buf]

theorem Agrees.histSlot_prep (h : Agrees cfg is s) (a : Nat) :
    histSlot cfg (.prep :: is) a = if s.alc ≤ a / 24 then 0 else s.buf.read a := by
  rw [histSlot, ← h.alc, ← h.buf]

theorem Agrees.histSlot_showStrip (h : Agrees cfg is s) (a : Nat) :
    histSlot cfg (.showStrip :: is) a =
      if s.init = true ∧ s.fsm = .idle ∧ s.alc ≤ a / 24 then 0 else s.buf.read a := by
  simp only [histSlot, ← h.init, ← h.alc, ← h.buf, h.histBusy_eq_false_iff]

end

/-! ### When an operation is ignored (R181) -/

theorem setLedStatus_ignored_iff (index : Nat) (s : State) :
    statusIgnored (setLedStatus index s) = true ↔ s.init = false ∨ s.alc ≤ index := by
  unfold setLedStatus
  split_ifs <;> simp [statusIgnored, *]

theorem fillAllStatus_ignored_iff (s : State) : statusIgnored (fillAllStatus s) = true ↔ s.init = false := by
  unfold fillAllStatus
  split_ifs <;> simp [statusIgnored, *]

theorem showStatus_ignored_iff (s : State) :
    statusIgnored (showStatus s) = true ↔ s.init = false ∨ s.fsm = .transmitting := by
  unfold showStatus
  split_ifs <;> simp [statusIgnored, *]

theorem completeStatus_ignored_iff (cfg : Params) (id : InstanceId) (s : State) :
    statusIgnored (completeStatus cfg id s) = true ↔
      s.init = false ∨ id ≠ cfg.instanceOf s.hnd ∨ s.fsm = .idle := by
  unfold completeStatus
  split_ifs <;> simp [statusIgnored, *]

/-! ### Every operation keeps the agreement (R140) -/

/-- R140: a slot above the LED groups of the buffer reads 0. -/
theorem Inv.read_eq_zero {cfg : Params} {s : State} (h : Inv cfg s) {a : Nat} (ha : cfg.capacity * 24 ≤ a) :
    s.buf.read a = 0 :=
  (Memory.read_eq_zero_or_mem s.buf a).resolve_right fun hc => Nat.not_lt.2 ha (h.bufInside _ hc)

/-- R138: seen over all slots, those outside the buffer included, PrepareResetTail leaves the inactive LEDs 0. -/
theorem Inv.zeroTail_read {cfg : Params} {s : State} (h : Inv cfg s) (a : Nat) :
    (s.zeroTail cfg).buf.read a = if s.alc ≤ a / 24 then 0 else s.buf.read a := by
  rw [Machine.zeroTail_read cfg s h.bufForm]
  by_cases hlo : s.alc * 24 ≤ a
  · rw [if_pos (show s.alc ≤ a / 24 by omega)]
    split_ifs with hin
    · rfl
    · exact h.read_eq_zero (by unfold Params.bufLen at hin; omega)
  · rw [if_neg (by omega), if_neg (by omega)]

section
variable {cfg : Params} {is : List Instr} {s t : State} {i : Instr}

/-- An ignored operation leaves the state as it was, and R140 passes over it. -/
theorem Agrees.ignored (h : Agrees cfg is s) (hinv : Inv cfg s)
    (hg : statusIgnored (statusOf cfg i s) = true) (c : Status) : Agrees cfg (i :: is) (s.drive c) := by
  cases i with
  | init hd ch n => simp [statusOf, initStatus_not_ignored] at hg
  | setled index r g b br =>
    have hoff := (setLedStatus_ignored_iff index s).1 hg
    refine h.cons (by simp) rfl rfl rfl h.fsm fun a => ?_
    have hmiss : ¬ (s.init = true ∧ index < s.alc ∧ a / 24 = index) := fun ⟨hi, hx, _⟩ =>
      hoff.elim (by simp [hi]) (Nat.not_le.2 hx)
    rw [h.histSlot_setled, if_neg hmiss]
    rfl
  | fillall r g b br =>
    have hoff := (fillAllStatus_ignored_iff s).1 hg
    refine h.cons (by simp) rfl rfl rfl h.fsm fun a => ?_
    rw [h.histSlot_fillall, if_neg (by simp [hoff])]
    rfl
  | prep => cases hg
  | showStrip =>
    have hoff := (showStatus_ignored_iff s).1 hg
    refine h.cons (by simp) rfl rfl rfl ?_ fun a => ?_
    · show s.fsm = .transmitting ↔ (histHandle is).isSome = true
      rw [← h.init]
      exact ⟨hinv.fsmInit, fun hi => hoff.resolve_left (by simp [hi])⟩
    · rw [h.histSlot_showStrip, if_neg fun ⟨hi, hs, _⟩ => by simp [hi, hs] at hoff]
      rfl
  | complete id =>
    have hoff := (completeStatus_ignored_iff cfg id s).1 hg
    refine h.cons (by simp) rfl rfl rfl ?_ h.buf
    rw [h.histBusy_complete hinv]
    refine ⟨fun hs => ⟨hs, ?_⟩, And.left⟩
    have hi : s.init = true := hinv.fsmInit hs
    simpa [hi, show s.fsm = .transmitting from hs] using hoff

/-- R140, step by step: with no other agent inside it, an operation answers what the longer history makes. -/
theorem Performed.agrees (hp : Performed cfg s i t) (hinv : Inv cfg s) (h : Agrees cfg is s)
    (hg : s.gaps = []) : Agrees cfg (i :: is) t := by
  cases hp with
  | ignored i hign => exact h.ignored hinv hign _
  | init hd ch n => exact ⟨rfl, fun _ hh => Option.some.inj hh, rfl, h.fsm, h.buf⟩
  | setled index r g b br hi hx =>
    refine h.slotsWritten (by simp) hg (perform_onlySlotsWritten _ _ _ s) rfl fun a => ?_
    rw [h.histSlot_setled, State.drive_buf, perform_led_read _ _ _ _ hinv.bufForm]
    exact if_congr (by simp only [hi, hx, true_and]; omega) rfl rfl
  | fillall r g b br hi =>
    refine h.slotsWritten (by simp) hg (perform_onlySlotsWritten _ _ _ s) rfl fun a => ?_
    rw [h.histSlot_fillall, State.drive_buf, perform_fill_read _ _ _ _ hinv.bufForm]
    exact if_congr (by simp only [hi, true_and]; omega) rfl rfl
  | prep =>
    refine h.slotsWritten (by simp) hg (perform_onlySlotsWritten _ _ _ s) rfl fun a => ?_
    rw [h.histSlot_prep, State.drive_buf, hinv.zeroTail_read]
  | showStrip t ht hi hs =>
    subst ht
    refine h.cons (by simp) (by simp) (by simp) (by simp) ?_ fun a => ?_
    · simp [histBusy, ← h.init, hi]
    · simp [h.histSlot_showStrip, hinv.zeroTail_read, hi, hs]
  | complete id hok =>
    refine h.cons (by simp) rfl rfl rfl ?_ h.buf
    have hid : id = cfg.instanceOf s.hnd := by_contra fun hne => by
      have hign := (completeStatus_ignored_iff cfg id s).2 (.inr (.inl hne))
      rw [hok] at hign
      cases hign
    rw [h.histBusy_complete hinv]
    simp [hid]

end

/-- Settles O51: `exec` can do no more than `Performed` lists. -/
theorem operationKeepsHistoryAgreement : Obligations.OperationKeepsHistoryAgreement :=
  fun _ _ _ _ hinv h hg hex => (exec_performed hex).agrees hinv h hg

/-! ### The buffer after any history (R140) -/

/-- R40: the reset state is what the empty history makes. -/
theorem agrees_reset (cfg : Params) : Agrees cfg [] State.reset :=
  ⟨rfl, fun _ hh => (nomatch hh), rfl, by simp [State.reset, histBusy], fun _ => rfl⟩

/-- Operations one after another, none of them stopping, lengthen the history a state agrees with. -/
theorem Agrees.execAll {hist : List Instr} {s : State} (h : Agrees Config.params hist s)
    (hinv : Inv Config.params s) (hg : s.gaps = []) (is : List Instr) :
    ∃ t, execAll is s = .next t ∧ Agrees Config.params (is.reverse ++ hist) t := by
  induction is generalizing hist s with
  | nil => exact ⟨s, rfl, h⟩
  | cons i is ih =>
    obtain ⟨u, hu⟩ := hinv.exec_next i
    have hp := exec_performed hu
    obtain ⟨t, ht, hagree⟩ := ih (hp.agrees hinv h hg) (hp.inv Config.params_wellFormed hinv) (hp.gaps_nil hg)
    exact ⟨t, by simp only [Machine.execAll, hu, ht], by simpa using hagree⟩

/-- Settles O47: from reset the operations make the state that agrees with their history, latest first. -/
theorem bufferIsFunctionOfHistory : Obligations.BufferIsFunctionOfHistory := by
  intro is
  obtain ⟨t, ht, h⟩ := (agrees_reset Config.params).execAll invariantAtReset rfl is
  exact ⟨t, ht, by simpa using h.buf⟩

end Machine
end Sys2Proof
end

-- ==== Proofs: transmission (spec/42_transmission.md) ====
section
/-! The transmission controller and the transfer engine. First the operations and the engine's steps one at a
time; then many steps of the other agents from one agenda; then a transfer under way, which every step of a
disciplined run carries on or ends (R166); last that fairness ends every transfer (R167). -/

namespace Sys2Proof
namespace Machine

open Config (Params)

/-! ### Show and the completion (R150, R151, R153) -/

/-- A Show that takes effect is the zeroing of the tail, one more boundary, and the request to the engine (R63). -/
theorem exec_showStrip {s : State} (hi : s.init = true) (hs : s.fsm = .idle)
    (hf : s.activeFault Config.params = none) :
    ∃ t, t = (s.zeroTail Config.params).takeGap Config.params ∧ exec .showStrip s =
      .next (((t.engStart (Config.params.instanceOf t.hnd) t.chn (totalLength Config.params s.alc)).setFsm
        .transmitting).drive .ok) :=
  ⟨_, rfl, by simp [exec, execShow, showOp, hi, hs, hf]⟩

/-- The engine rests and the block is Idle, with this much on the line. -/
def Resting (l : List (List Slot)) (t : State) : Prop := t.fsm = .idle ∧ t.engActive = false ∧ t.line = l

theorem Resting.agentStep {cfg : Params} {l : List (List Slot)} {t : State} (h : Resting l t)
    (a : AgentStep) : Resting l (t.agentStep cfg a) := by
  obtain ⟨hs, hoff, hline⟩ := h
  obtain ⟨c, hc⟩ := agentStep_of_idle cfg t a hs hoff
  rw [hc]
  exact ⟨hs, hoff, hline⟩

/-- R164: while the engine rests, nothing that falls inside PrepareResetTail or after it reaches the line. -/
theorem Resting.zeroTail_takeGap {cfg : Params} {l : List (List Slot)} {s : State} (h : Resting l s) :
    Resting l ((s.zeroTail cfg).takeGap cfg) :=
  takeGap_keeps cfg (Resting l) (fun _ a h => h.agentStep a) (fun _ _ h => h) _
    (runWrites_keeps cfg (Resting l) (fun _ a h => h.agentStep a) (fun _ _ h => h)
      (fun _ h => by simpa [Resting] using h) _ (s.setProgress _) h)

/-- Settles O21: the slot writes zero the tail, nothing reaches the line meanwhile, and the request to the engine
follows them. -/
theorem showStartsTransfer : Obligations.ShowStartsTransfer := by
  intro s hi hs hoff hcap hw
  have hf : s.activeFault Config.params = none := by simp [State.activeFault, State.engineFault, hcap, hoff]
  obtain ⟨_, _, hline⟩ := Resting.zeroTail_takeGap (cfg := Config.params) (s := s) ⟨hs, hoff, rfl⟩
  obtain ⟨t, rfl, hex⟩ := exec_showStrip hi hs hf
  refine ⟨_, hex, rfl, rfl, by simp, by simp, rfl, rfl, by simp [hline], fun a hlo hhi => ?_, fun a ha => ?_,
    by simp, by simp, by simp, by simp, by simp, by simp, by simp [State.zeroTail], rfl⟩
  · simp [zeroTail_read _ _ hw, show s.alc * 24 ≤ a from hlo, hhi]
  · have hout : ¬ (s.alc * 24 ≤ a ∧ a < Config.params.bufLen) := by unfold tailStart at ha; omega
    simp [zeroTail_read _ _ hw, hout]

/-- Settles O22: the second test of Show, before anything is done. -/
theorem showWhileTransmittingIgnored : Obligations.ShowWhileTransmittingIgnored := by
  intro s hi hs
  have hign : exec .showStrip s = .next (s.drive .ignBusy) := by simp [exec, execShow, showOp, hi, hs]
  exact hign

/-- R153: what the handler does with a notification that matches the binding. -/
theorem onTransferComplete_of_match {cfg : Params} {s : State} (hi : s.init = true) (hs : s.fsm = .transmitting) :
    s.onTransferComplete cfg (cfg.instanceOf s.hnd) =
      { s with engActive := false, fsm := .idle, statusOut := some .ok } := by
  rcases onTransferComplete_cases cfg (cfg.instanceOf s.hnd) s with ⟨hign, _⟩ | ⟨_, _, _, h⟩
  · rw [completeStatus_ignored_iff] at hign
    simp [hi, hs] at hign
  · exact h

/-- Settles O23: the operation is the handler, and the three tests pass. -/
theorem completeStopsTransfer : Obligations.CompleteStopsTransfer := fun _ hi hs =>
  congrArg Host.Outcome.next (onTransferComplete_of_match hi hs)

/-! ### The state machine (R155) -/

theorem Fsm.ne_transmitting_iff {f : Fsm} : f ≠ .transmitting ↔ f = .idle := by cases f <;> simp

theorem Fsm.ne_idle_iff {f : Fsm} : f ≠ .idle ↔ f = .transmitting := by cases f <;> simp

section
variable {cfg : Params} {s t : State} {i : Instr}

/-- The row Idle of R155. -/
theorem Performed.transmitting_iff (h : Performed cfg s i t) (hs : s.fsm = .idle) :
    t.fsm = .transmitting ↔ i = .showStrip ∧ s.init = true := by
  refine ⟨fun ht => (h.show_of_transmitting hs ht).symm, fun ⟨hshow, hi⟩ => ?_⟩
  subst hshow
  cases h with
  | ignored _ hign => simp [showStatus_ignored_iff, statusOf, hi, hs] at hign
  | showStrip => rfl

/-- The row Transmitting of R155. -/
theorem Performed.idle_iff (h : Performed cfg s i t) (hs : s.fsm = .transmitting) (hg : s.gaps = []) :
    t.fsm = .idle ↔ s.init = true ∧ i = .complete (cfg.instanceOf s.hnd) := by
  have hwrites : ∀ p n, (s.perform cfg p n).fsm = .transmitting := fun p n =>
    (perform_sameEngine cfg p n hg).1.trans hs
  cases h with
  | ignored _ hign =>
    suffices ¬ (s.init = true ∧ i = .complete (cfg.instanceOf s.hnd)) by simpa [hs] using this
    rintro ⟨hi, rfl⟩
    simp [completeStatus_ignored_iff, statusOf, hi, hs] at hign
  | init => simp [hs]
  | setled | fillall => simp [hwrites]
  | prep => simp [State.zeroTail, hwrites]
  | showStrip _ _ _ hidle => simp [hs] at hidle
  | complete id hok =>
    have htaken : ¬ statusIgnored (completeStatus cfg id s) = true := by simp [hok, statusIgnored]
    rw [completeStatus_ignored_iff] at htaken
    simpa [hs] using htaken

end

/-- Settles O32: each row has one operation that leaves it. -/
theorem stateMachineTable : Obligations.StateMachineTable := by
  intro i s t h hg
  have hp := exec_performed h
  refine ⟨fun hs => ?_, fun hs => ?_⟩
  · split_ifs with hshow
    · exact (hp.transmitting_iff hs).2 hshow
    · exact Fsm.ne_transmitting_iff.1 fun ht => hshow ((hp.transmitting_iff hs).1 ht)
  · split_ifs with hmatch
    · exact (hp.idle_iff hs hg).2 hmatch
    · exact Fsm.ne_idle_iff.1 fun ht => hmatch ((hp.idle_iff hs hg).1 ht)

/-! ### The engine's steps between operations (R161, R162) -/

theorem step_agent {s : State} {a : AgentStep} {es : List Event} (h : s.agenda = .agent a :: es) :
    step s = agentEvent a (s.setAgenda es) := by unfold step; rw [h]

/-- Settles O8: the two steps are guarded by what makes them enabled. -/
theorem stepRunsEngine : Obligations.StepRunsEngine := by
  refine ⟨fun s es hag hf => ?_, fun s es hag => ?_⟩
  · have hf' : (s.setAgenda es).engineFault Config.params = none := hf
    have hen := engReadEnabled_iff (s.setAgenda es)
    rw [step_agent hag]
    by_cases hon : s.engActive = true ∧ s.engPos < s.engLen
    · rw [if_pos hon]
      simp only [agentEvent, engReadOp, hen.2 hon, hf']
      rfl
    · rw [if_neg hon]
      exact if_neg fun hread => hon (hen.1 hread)
  · have hen := engNotifyEnabled_iff (s.setAgenda es)
    rw [step_agent hag]
    simp only [agentEvent, hen]
    rfl

/-- Another agent's event stops only where the engine is in a fault (notes/assumptions/6.md). -/
theorem agentEvent_eq {s : State} (hf : s.engineFault Config.params = none) (a : AgentStep) :
    agentEvent a s = .next (s.agentStep Config.params a) := by
  obtain ⟨t, ht⟩ : ∃ t, agentEvent a s = .next t := by
    cases a with
    | ntfWord w =>
      rcases hw : decode .ntf w with r | i
      · exact ⟨_, deliver_error hw s⟩
      · obtain ⟨id, rfl⟩ : ∃ id, i = .complete id := by
          cases i with
          | complete id => exact ⟨id, rfl⟩
          | _ => cases (decode_ok .ntf w _ hw).2
        exact ⟨_, deliver_ok hw s⟩
    | engRead =>
      simp only [agentEvent, engReadOp, hf]
      split_ifs <;> exact ⟨_, rfl⟩
    | engNotify =>
      simp only [agentEvent]
      split_ifs <;> exact ⟨_, rfl⟩
  rw [ht, agentEvent_next ht]

theorem runSteps_succ {s t : State} (k : Nat) (h : step s = .next t) : runSteps (k + 1) s = runSteps k t := by
  simp only [runSteps, h]

/-- One step with nothing but other agents' steps at the head of the agenda. -/
theorem step_agentsOnly {s : State} {a : AgentStep} {steps : List AgentStep} {es : List Event}
    (hag : s.agenda = agentsOnly (a :: steps) ++ es) (hf : s.engineFault Config.params = none) :
    step s = .next ((s.setAgenda (agentsOnly steps ++ es)).agentStep Config.params a) := by
  have hf' : (s.setAgenda (agentsOnly steps ++ es)).engineFault Config.params = none := hf
  exact (step_agent hag).trans (agentEvent_eq hf' a)

/-- Settles O37: each of the steps leaves the engine at rest and the block Idle. -/
theorem stoppedEngineStaysStopped : Obligations.StoppedEngineStaysStopped := by
  intro s steps es hoff hs hag
  induction steps generalizing s with
  | nil => exact ⟨s.statusOut, by cases s; simp_all [runSteps, agentsOnly]⟩
  | cons a steps ih =>
    have hstep := step_agentsOnly hag (by simp [State.engineFault, hoff])
    obtain ⟨c, hc⟩ := agentStep_of_idle Config.params (s.setAgenda (agentsOnly steps ++ es)) a hs hoff
    rw [hc] at hstep
    obtain ⟨d, hd⟩ := ih { s with agenda := agentsOnly steps ++ es, statusOut := c } hoff hs rfl
    exact ⟨d, (runSteps_succ _ hstep).trans hd⟩

/-- `n` reads of an active engine outside its faults: the next `n` slots in ascending order. -/
theorem runSteps_engRead_eq {n : Nat} {s : State} {ls : List (List Slot)} {r : List Slot} {es : List Event}
    (ha : s.engActive = true) (hp : s.engPos + n ≤ s.engLen) (hf : s.engineFault Config.params = none)
    (hl : s.line = ls ++ [r]) (hag : s.agenda = agentsOnly (List.replicate n .engRead) ++ es) :
    runSteps n s = .next { s with
      agenda := es
      engPos := s.engPos + n
      line := ls ++ [r ++ (List.range' s.engPos n).map s.buf.read] } := by
  induction n generalizing s r with
  | zero => cases s; simp_all [runSteps, agentsOnly]
  | succ n ih =>
    have hstep := step_engRead s _ hag ha (by omega) hf
    have hline : appendToLast s.line (s.buf.read s.engPos) = ls ++ [r ++ [s.buf.read s.engPos]] := by
      rw [hl, appendToLast_concat]
    have hrest := ih (s := (s.setAgenda (agentsOnly (List.replicate n .engRead) ++ es)).engRead) ha
      (by simp; omega) (engRead_engineFault _ _ hf) hline rfl
    exact (runSteps_succ n hstep).trans (hrest.trans (by
      simp [State.engRead, State.setAgenda, List.range'_succ, Nat.add_assoc, Nat.add_comm 1 n]))

/-- Settles O36: with a record open and its window in the buffer the engine is in no fault. -/
theorem engineReadsAscending : Obligations.EngineReadsAscending := by
  intro s n ls r es ha hp hlen hl hag
  exact runSteps_engRead_eq ha hp (by simp [State.engineFault, hlen, hl]) hl hag

/-! ### The frame (R168) -/

/-- The first slots of a buffer, and those that follow them. -/
theorem slotsOf_add (m : Memory) (p n : Nat) :
    slotsOf m (p + n) = slotsOf m p ++ (List.range' p n).map m.read := by
  simp [slotsOf, List.range_add, List.range'_eq_map_range]

/-- A buffer that agrees with the state's below the reset tail and is 0 from there on holds the frame in the
transfer window. -/
theorem slotsOf_totalLength (cfg : Params) (s : State) (m : Memory)
    (hlo : ∀ a, a < tailStart s.alc → m.read a = s.buf.read a)
    (hhi : ∀ a, tailStart s.alc ≤ a → a < totalLength cfg s.alc → m.read a = 0) :
    slotsOf m (totalLength cfg s.alc) = frameOf cfg s := by
  have hgroups : slotsOf m (s.alc * 24) = slotsOf s.buf (s.alc * 24) :=
    List.map_congr_left fun a ha => hlo a (List.mem_range.1 ha)
  have hreset : (List.range' (s.alc * 24) cfg.resetSlotCount).map m.read =
      List.replicate cfg.resetSlotCount 0 := by
    refine List.eq_replicate_iff.2 ⟨by simp, fun v hv => ?_⟩
    obtain ⟨a, ha, rfl⟩ := List.mem_map.1 hv
    obtain ⟨hfrom, hto⟩ := List.mem_range'_1.1 ha
    exact hhi a hfrom hto
  rw [frameOf, Nat.mul_comm 24, ← hgroups, ← hreset]
  exact slotsOf_add m (s.alc * 24) cfg.resetSlotCount

/-! ### A transfer under way (R160, R161) -/

/-- The transfer of the frame `f` is under way, after the records `l`: the window holds the frame, and the open
record is the part of it that has been read. -/
structure Sending (l : List (List Slot)) (f : List Slot) (s : State) : Prop where
  init : s.init = true
  fsm : s.fsm = .transmitting
  active : s.engActive = true
  bound : s.engInst = Config.params.instanceOf s.hnd
  window : slotsOf s.buf s.engLen = f
  line : s.line = l ++ [slotsOf s.buf s.engPos]

/-- What a Show that takes effect starts (R150, R160, R63). -/
theorem Inv.show_sending {s : State} (hinv : Inv Config.params s) (hi : s.init = true) (hs : s.fsm = .idle) :
    ∃ t, exec .showStrip s = .next t ∧ Sending s.line (frameOf Config.params s) t ∧ t.engPos = 0 ∧
      t.engLen = totalLength Config.params s.alc ∧ t.agenda = s.agenda := by
  have hoff : s.engActive = false := by
    rw [← Bool.not_eq_true, ← hinv.fsmEngine, hs]
    simp
  obtain ⟨t, hex, hfsm, hact, hinst, _, hlen, hpos, hline, hzero, hkept, _, hinit, hhnd, _, _, hag, _⟩ :=
    showStartsTransfer s hi hs hoff hinv.alcBound hinv.bufForm
  have hfits : totalLength Config.params s.alc ≤ Config.params.bufLen := by
    have := hinv.alcBound
    unfold totalLength Params.bufLen
    omega
  refine ⟨t, hex, ⟨hinit.trans hi, hfsm, hact, by rw [hinst, hhnd], ?_, by rw [hline, hpos]; rfl⟩, hpos, hlen, hag⟩
  rw [hlen]
  exact slotsOf_totalLength _ s t.buf (fun a ha => hkept a (.inl ha))
    fun a hlo hhi => hzero a hlo (Nat.lt_of_lt_of_le hhi hfits)

/-- A word that decodes to Show starts the transfer in one step. -/
theorem Inv.step_show {s : State} {w : Word} {es : List Event} (hinv : Inv Config.params s) (hi : s.init = true)
    (hs : s.fsm = .idle) (hag : s.agenda = .cmdWord w :: es) (hw : decode .cmd w = .ok .showStrip) :
    ∃ t, step s = .next t ∧ Sending s.line (frameOf Config.params s) t ∧ t.engPos = 0 ∧
      t.engLen = totalLength Config.params s.alc ∧ t.agenda = es := by
  rw [step_cmdWord hag, deliver_ok hw]
  exact (hinv.setAgenda es).show_sending hi hs

/-- A read lengthens the open record by the next slot of the window. -/
theorem Sending.engRead {l : List (List Slot)} {f : List Slot} {s : State} (h : Sending l f s) :
    Sending l f s.engRead :=
  { h with
    line := by
      show appendToLast s.line _ = l ++ [slotsOf s.buf (s.engPos + 1)]
      rw [h.line, appendToLast_concat, slotsOf_add]
      rfl }

/-- Reads inside the window carry the transfer on. -/
theorem Sending.runSteps_engRead {l : List (List Slot)} {f : List Slot} {s : State} (h : Sending l f s) {n : Nat}
    {es : List Event} (hp : s.engPos + n ≤ s.engLen) (hf : s.engineFault Config.params = none)
    (hag : s.agenda = agentsOnly (List.replicate n .engRead) ++ es) :
    ∃ t, runSteps n s = .next t ∧ Sending l f t ∧ t.engPos = s.engPos + n ∧ t.engLen = s.engLen ∧ t.agenda = es :=
  ⟨_, runSteps_engRead_eq h.active hp hf h.line hag, { h with line := by rw [slotsOf_add] }, rfl, rfl, rfl⟩

/-- The engine's own notification matches the binding and ends the transfer. -/
theorem Sending.onTransferComplete {l : List (List Slot)} {f : List Slot} {s : State} (h : Sending l f s) :
    s.onTransferComplete Config.params s.engInst =
      { s with engActive := false, fsm := .idle, statusOut := some .ok } := by
  have hmatch := onTransferComplete_of_match (cfg := Config.params) h.init h.fsm
  rwa [← h.bound] at hmatch

/-- The engine's own notification, at the end of the window, as a step of the machine. -/
theorem Sending.step_engNotify {l : List (List Slot)} {f : List Slot} {s : State} (h : Sending l f s)
    {es : List Event} (hp : s.engPos = s.engLen) (hag : s.agenda = .agent .engNotify :: es) :
    step s = .next { s with agenda := es, engActive := false, fsm := .idle, statusOut := some .ok } := by
  obtain ⟨_, hnotify⟩ := stepRunsEngine
  have hsend : Sending l f { s with agenda := es } := { h with }
  rw [hnotify s es hag, if_pos ⟨h.active, hp⟩]
  exact congrArg Host.Outcome.next hsend.onTransferComplete

/-- With the whole window read the line holds the frame. -/
theorem Sending.line_of_end {l : List (List Slot)} {f : List Slot} {s : State} (h : Sending l f s)
    (hp : s.engPos = s.engLen) : s.line = l ++ [f] := by rw [h.line, hp, h.window]

/-- Settles O49: the Show starts the transfer, the reads take it to the end of the window, and there the engine's
own notification ends it. -/
theorem transferCompletes : Obligations.TransferCompletes := by
  intro s w n hinv hi hs hn hw hag
  obtain ⟨t, hshow, hsend, hpos, hlen, hagt⟩ := hinv.step_show hi hs hag hw
  have hend : t.engPos + n = t.engLen := by rw [hpos, hlen, hn, Nat.zero_add]; rfl
  obtain ⟨u, hreads, hread, hposu, hlenu, hagu⟩ := hsend.runSteps_engRead (n := n) (es := [.agent .engNotify])
    hend.le (stepKeepsInvariant s t hinv hshow).engineFault (by simp [hagt, agentsOnly])
  have hendu : u.engPos = u.engLen := by rw [hposu, hlenu, hend]
  have hrun : runSteps (n + 2) s = _ := calc
    runSteps (n + 2) s = runSteps (n + 1) t := runSteps_succ _ hshow
    _ = runSteps 1 u := runSteps_add n 1 t u hreads
    _ = _ := runSteps_succ 0 (hread.step_engNotify hendu hagu)
  exact ⟨_, hrun, ⟨by simp, rfl, rfl⟩, hread.line_of_end hendu⟩

/-! ### One step of a disciplined run (R166) -/

/-- A transfer goes on from `s` to `t`: the window stays, the position does not move back, an enabled read that
was taken has moved it on, and no enabled `EngNotify` was taken. -/
structure GoesOn (s t : State) : Prop where
  len : t.engLen = s.engLen
  pos : s.engPos ≤ t.engPos
  read : ∀ x, (x, AgentStep.engRead) ∈ stepTaken Config.params s → x.engReadEnabled = true → s.engPos < t.engPos
  notify : ∀ x, (x, AgentStep.engNotify) ∈ stepTaken Config.params s → x.engNotifyEnabled = false

/-- A disciplined step carries the transfer on or ends it, and under `ENV_NOTIFY_AT_END` it ends it with the whole
frame on the line. -/
theorem Sending.step {l : List (List Slot)} {f : List Slot} {s t : State} (h : Sending l f s)
    (hd : AppDiscipline s) (hs : step s = .next t) :
    (Sending l f t ∧ GoesOn s t) ∨
    (t.fsm = .idle ∧ (NotifyAtEnd Config.params s → t.line = l ++ [f])) := by
  rcases disciplined_step_cases s t hd h.init h.fsm hs with
    ⟨c, rfl, htaken⟩ | ⟨es, htaken, hen, rfl⟩ | ⟨es, a, id, htaken, rfl, ha⟩
  · refine .inl ⟨{ h with }, rfl, le_rfl, fun x hx hen => ?_, fun x hx => (htaken x _ hx).2 rfl⟩
    simp [(htaken x _ hx).1 rfl] at hen
  · have hsend : Sending l f (s.setAgenda es) := { h with }
    exact .inl ⟨hsend.engRead, rfl, Nat.le_succ _, fun _ _ _ => Nat.lt_succ_self _, by simp [htaken]⟩
  · rcases ha with ⟨rfl, hen, rfl⟩ | ⟨w, rfl, hw⟩
    · obtain ⟨_, hend⟩ := (engNotifyEnabled_iff s).1 hen
      have hsend : Sending l f (s.setAgenda es) := { h with }
      rw [show (s.setAgenda es).onTransferComplete Config.params s.engInst = _ from hsend.onTransferComplete]
      exact .inr ⟨rfl, fun _ => h.line_of_end hend⟩
    · rcases onTransferComplete_cases Config.params id (s.setAgenda es) with ⟨_, hign⟩ | ⟨_, rfl, _, hdone⟩
      · rw [hign]
        exact .inl ⟨{ h with }, rfl, le_rfl, by simp [htaken], by simp [htaken]⟩
      · rw [hdone]
        refine .inr ⟨rfl, fun hn => ?_⟩
        have hown := hn (s.setAgenda es) (.ntfWord w) (by simp [htaken]) h.active hw
        cases hown

/-- The invariants hold along a run. -/
theorem Inv.follows {s t : State} (h : Inv Config.params s) (hst : Follows s t) : Inv Config.params t := by
  obtain ⟨u, es, gs, hu, rfl⟩ := hst
  exact ((stepKeepsInvariant s u h hu).setAgenda es).setGaps gs

/-- What comes next on the schedule makes no difference to the transfer. -/
theorem Sending.follows {l : List (List Slot)} {f : List Slot} {s t : State} (h : Sending l f s)
    (hd : AppDiscipline s) (hst : Follows s t) :
    (Sending l f t ∧ GoesOn s t) ∨
    (t.fsm = .idle ∧ (NotifyAtEnd Config.params s → t.line = l ++ [f])) := by
  obtain ⟨u, es, gs, hu, rfl⟩ := hst
  exact (h.step hd hu).imp_left fun ⟨hsend, hgo⟩ => ⟨{ hsend with }, { hgo with }⟩

/-- The first step of a run whose first event is a Show that takes effect. -/
theorem Inv.follows_show {s t : State} {w : Word} {es : List Event} (hinv : Inv Config.params s)
    (hi : s.init = true) (hs : s.fsm = .idle) (hag : s.agenda = .cmdWord w :: es)
    (hw : decode .cmd w = .ok .showStrip) (hst : Follows s t) :
    Sending s.line (frameOf Config.params s) t := by
  obtain ⟨u, _, _, hu, rfl⟩ := hst
  obtain ⟨v, hv, hsend, _⟩ := hinv.step_show hi hs hag hw
  obtain rfl : v = u := Host.Outcome.next.inj (hv.symm.trans hu)
  exact { hsend with }

/-- Settles O48: each step of the run carries the transfer on until the one that ends it. -/
theorem disciplinedRunSendsFrame : Obligations.DisciplinedRunSendsFrame := by
  intro run n w es hinv hi hs hag hw hrun hprem htr hidle
  have hsent : ∀ k, k ≤ n → Sending (run 0).line (frameOf Config.params (run 0)) (run (k + 1)) ∨
      ((run (k + 1)).fsm = .idle ∧
        (run (k + 1)).line = (run 0).line ++ [frameOf Config.params (run 0)]) := by
    intro k hk
    induction k with
    | zero => exact .inl (hinv.follows_show hi hs hag hw (hrun 0 (Nat.succ_pos n)))
    | succ k ih =>
      obtain ⟨hd, hn⟩ := hprem (k + 1) hk
      rcases ih (by omega) with hsend | ⟨hdone, _⟩
      · exact (hsend.follows hd (hrun (k + 1) (by omega))).imp And.left (And.imp_right fun hline => hline hn)
      · rw [htr (k + 1) (Nat.succ_pos k) hk] at hdone
        cases hdone
  rcases hsent n le_rfl with hsend | ⟨_, hline⟩
  · rw [hsend.fsm] at hidle
    cases hidle
  · exact hline

/-! ### Fairness ends every transfer (R166, R167) -/

/-- In a disciplined run that starts Idle every transfer was started by a Show (R155). -/
theorem Run.sending {run : Nat → State} (hrun : Run run) (hinv : Inv Config.params (run 0))
    (hidle : (run 0).fsm = .idle) (hd : ∀ k, AppDiscipline (run k)) (k : Nat) :
    Inv Config.params (run k) ∧ ((run k).fsm = .transmitting → ∃ l f, Sending l f (run k)) := by
  induction k with
  | zero => exact ⟨hinv, by simp [hidle]⟩
  | succ k ih =>
    obtain ⟨hinvk, hsend⟩ := ih
    refine ⟨hinvk.follows (hrun k), fun ht => ?_⟩
    cases hs : (run k).fsm with
    | idle =>
      obtain ⟨u, _, _, hu, hnext⟩ := hrun k
      obtain ⟨hi, w, es, hag, hw⟩ := onlyShowStartsTransmitting _ u hu hs (by rwa [hnext] at ht)
      exact ⟨_, _, hinvk.follows_show hi hs hag hw (hrun k)⟩
    | transmitting =>
      obtain ⟨l, f, h⟩ := hsend hs
      rcases h.follows (hd k) (hrun k) with ⟨h', _⟩ | ⟨hdone, _⟩
      · exact ⟨l, f, h'⟩
      · rw [hdone] at ht
        cases ht

/-- From point `k` of the run on the transfer goes on without end. -/
structure Endless (run : Nat → State) (k : Nat) : Prop where
  active : ∀ j, k ≤ j → (run j).engActive = true
  inWindow : ∀ j, k ≤ j → (run j).engPos ≤ (run j).engLen
  goesOn : ∀ j, k ≤ j → GoesOn (run j) (run (j + 1))

section
variable {run : Nat → State} {k : Nat} (h : Endless run k)
include h

/-- The window stays and the position never moves back. -/
theorem Endless.mono {i j : Nat} (hi : k ≤ i) (hij : i ≤ j) :
    (run j).engLen = (run i).engLen ∧ (run i).engPos ≤ (run j).engPos := by
  induction j, hij using Nat.le_induction with
  | base => exact ⟨rfl, le_rfl⟩
  | succ j hij ih =>
    obtain ⟨hlen, hpos⟩ := ih
    have hgo := h.goesOn j (hi.trans hij)
    exact ⟨hgo.len.trans hlen, hpos.trans hgo.pos⟩

variable (hfair : EventuallyNotifies Config.params run)
include hfair

/-- Fairness of `EngRead`: short of the end of the window the position moves on. -/
theorem Endless.reads_on {i : Nat} (hi : k ≤ i) (hlt : (run i).engPos < (run i).engLen) :
    ∃ j, i ≤ j ∧ (run i).engPos < (run j).engPos := by
  obtain ⟨hread, _⟩ := hfair
  obtain ⟨j, hij, hoff | ⟨x, hx, hen⟩⟩ := hread i ((engReadEnabled_iff _).2 ⟨h.active i hi, hlt⟩)
  · obtain ⟨hlen, hpos⟩ := h.mono hi hij
    have hend : ¬ (run j).engPos < (run j).engLen := fun hp => by
      simp [(engReadEnabled_iff _).2 ⟨h.active j (hi.trans hij), hp⟩] at hoff
    exact ⟨j, hij, by omega⟩
  · obtain ⟨_, hpos⟩ := h.mono hi hij
    exact ⟨j + 1, by omega, hpos.trans_lt ((h.goesOn j (hi.trans hij)).read x hx hen)⟩

/-- So the engine comes to the end of its window. -/
theorem Endless.reaches_end {i : Nat} (hi : k ≤ i) : ∃ j, k ≤ j ∧ (run j).engPos = (run j).engLen := by
  induction hrest : (run i).engLen - (run i).engPos using Nat.strong_induction_on generalizing i with
  | _ rest ih =>
    rcases (h.inWindow i hi).eq_or_lt with hend | hlt
    · exact ⟨i, hi, hend⟩
    · obtain ⟨j, hij, hpos⟩ := h.reads_on hfair hi hlt
      obtain ⟨hlen, _⟩ := h.mono hi hij
      exact ih _ (by omega) (hi.trans hij) rfl

/-- Fairness of `EngNotify`: at the end of the window the engine's own notification ends the transfer. -/
theorem Endless.absurd : False := by
  obtain ⟨i, hi, hend⟩ := h.reaches_end hfair le_rfl
  obtain ⟨_, hnotify⟩ := hfair
  obtain ⟨j, hij, hoff | ⟨x, hx, hen⟩⟩ := hnotify i ((engNotifyEnabled_iff _).2 ⟨h.active i hi, hend⟩)
  · obtain ⟨hlen, hpos⟩ := h.mono hi hij
    have hin := h.inWindow j (hi.trans hij)
    have hon := (engNotifyEnabled_iff (run j)).2 ⟨h.active j (hi.trans hij), by omega⟩
    simp [hon] at hoff
  · simp [(h.goesOn j (hi.trans hij)).notify x hx] at hen

end

/-- Settles O52: a run that is never Idle again would be in one transfer without end. -/
theorem disciplinedRunReturnsToIdle : Obligations.DisciplinedRunReturnsToIdle := by
  intro run hrun hinv hidle hd hfair k _
  by_contra hnever
  have hs : ∀ j, k ≤ j → (run j).fsm = .transmitting := fun j hj =>
    Fsm.ne_idle_iff.1 fun hdone => hnever ⟨j, hj, hdone⟩
  have hall := hrun.sending hinv hidle hd
  have hact : ∀ j, k ≤ j → (run j).engActive = true := fun j hj => by
    obtain ⟨hinvj, _⟩ := hall j
    exact hinvj.fsmEngine.1 (hs j hj)
  have hendless : Endless run k :=
    { active := hact
      inWindow := fun j hj => by
        obtain ⟨hinvj, _⟩ := hall j
        obtain ⟨_, _, _, hpos⟩ := hinvj.window (hact j hj)
        exact hpos
      goesOn := fun j hj => by
        obtain ⟨_, hsend⟩ := hall j
        obtain ⟨l, f, h⟩ := hsend (hs j hj)
        rcases h.follows (hd j) (hrun j) with ⟨_, hgo⟩ | ⟨hdone, _⟩
        · exact hgo
        · exact absurd ⟨j + 1, by omega, hdone⟩ hnever }
  exact hendless.absurd hfair

end Machine
end Sys2Proof
end

-- ==== Proofs: exceptions (spec/60_exceptions.md) ====
section
/-! Status codes, ignored operations and stops (R180 to R184). First what makes the model's guards stop; then that
every operation goes on or is stopped by a guard, and only when it is not ignored; from this, that an ignored
operation only drives its code, and which code. -/

namespace Sys2Proof
namespace Machine

open Config (Params)

/-! ### The status codes (R182) -/

/-- R182: the codes are numbered in the order of `Status`, so a number gives back its code. -/
theorem ofNat_statusCode (c : Status) : Status.ofNat (statusCode c).toNat = c := by cases c <;> rfl

/-- Settles O50: the numbers by definition, and different codes have different numbers because each gives its
code back. -/
theorem statusCodeNumbers : Obligations.StatusCodeNumbers :=
  ⟨rfl, rfl, rfl, rfl, rfl, rfl, rfl, rfl, fun c d h => by rw [← ofNat_statusCode c, h, ofNat_statusCode]⟩

/-- Settles O25: whatever an operation can have done, its last write is that of its code. -/
theorem statusIsFunctionOfStateBefore : Obligations.StatusIsFunctionOfStateBefore :=
  fun _ _ _ h => (exec_performed h).statusOut

/-! ### What stops an operation (R180, R53) -/

theorem engineFault_eq_some_iff {cfg : Params} {s : State} {f : Fault} :
    s.engineFault cfg = some f ↔
      (f = .slotOutsideBuffer ∧ s.engActive = true ∧ cfg.bufLen < s.engLen) ∨
      (f = .noTransferRecord ∧ s.engActive = true ∧ s.engLen ≤ cfg.bufLen ∧ s.line = []) := by
  unfold State.engineFault
  split_ifs with hact hlen hline
  · simp [hact, hlen, hline, eq_comm]
  · simp [hlen, hline]
  · simp [hact, hlen, Nat.not_le.1 hlen, eq_comm]
  · simp [hact]

theorem activeFault_eq_some_iff {cfg : Params} {s : State} {f : Fault} :
    s.activeFault cfg = some f ↔
      (f = .slotOutsideBuffer ∧ cfg.capacity < s.alc) ∨
      (s.alc ≤ cfg.capacity ∧ s.engineFault cfg = some f) := by
  unfold State.activeFault
  split_ifs with hcap
  · simp [hcap]
  · simp [hcap, Nat.not_le.1 hcap, eq_comm]

/-- An operation goes on to a next state, or one of the model's guards stops it; the tests for being ignored come
before the guards (R181, notes/assumptions/6.md). -/
theorem exec_next_or_fault (i : Instr) (s : State) :
    (∃ t, exec i s = .next t) ∨
    ∃ f, exec i s = .fault f ∧ statusIgnored (statusOf Config.params i s) = false ∧
      (s.engineFault Config.params = some f ∨ s.activeFault Config.params = some f) := by
  cases i with
  | init | complete => exact .inl ⟨_, rfl⟩
  | prep =>
    simp only [exec, execPrep, prepOp]
    rcases s.engineFault Config.params with _ | f
    · exact .inl ⟨_, rfl⟩
    · exact .inr ⟨f, rfl, rfl, .inl rfl⟩
  | setled | fillall | showStrip =>
    simp only [exec, execSetLed, setLedOp, setLedStatus, execFillAll, fillAllOp, fillAllStatus, execShow, showOp,
      showStatus, statusOf]
    rcases s.activeFault Config.params with _ | f
    · split_ifs <;> exact .inl ⟨_, rfl⟩
    · split_ifs <;> simp [statusIgnored]

/-- Settles O27: no arm of `exec` refuses, and each guard stops on what the statement names. -/
theorem operationsStopOnlyOutsideInvariant : Obligations.OperationsStopOnlyOutsideInvariant := by
  intro i s
  rcases exec_next_or_fault i s with ⟨t, ht⟩ | ⟨f, hf, _, hguard⟩
  · simp [ht]
  · rw [hf]
    refine ⟨fun _ => nofun, fun _ h => ?_⟩
    cases h
    rw [activeFault_eq_some_iff, engineFault_eq_some_iff] at hguard
    tauto

/-- Settles O40: an operation goes on by `Inv.exec_next`, a step of another agent because the engine is in no
fault, and a rejected word and an empty agenda stop nothing. -/
theorem noStepFaults : Obligations.NoStepFaults := by
  intro s h
  rcases hag : s.agenda with _ | ⟨e, es⟩
  · exact ⟨s, by simp only [step, hag]⟩
  cases e with
  | cmdWord w =>
    rw [step_cmdWord hag]
    rcases hd : decode .cmd w with r | i
    · exact ⟨_, deliver_error hd _⟩
    · rw [deliver_ok hd]
      exact (h.setAgenda es).exec_next i
  | agent a => exact ⟨_, (step_agent hag).trans (agentEvent_eq (h.setAgenda es).engineFault a)⟩

/-! ### An ignored operation drives its code and does nothing else (R181, R184) -/

/-- An operation whose code is that of an ignored one was ignored: the code of every other outcome says that the
operation took effect. -/
theorem Performed.eq_drive_of_ignored {cfg : Params} {i : Instr} {s t : State} (h : Performed cfg s i t)
    (hign : statusIgnored (statusOf cfg i s) = true) : t = s.drive (statusOf cfg i s) := by
  have hst := h.statusOut
  cases h with
  | ignored => rfl
  | init => simp [statusOf, initStatus_not_ignored] at hign
  | _ =>
    simp only [State.drive_statusOut, Option.some.injEq] at hst
    simp [← hst, statusIgnored] at hign

theorem exec_of_ignored {i : Instr} {s : State} {c : Status} (hst : statusOf Config.params i s = c)
    (hign : statusIgnored c = true) : exec i s = .next (s.drive c) := by
  subst hst
  rcases exec_next_or_fault i s with ⟨t, ht⟩ | ⟨_, _, htaken, _⟩
  · rw [ht, (exec_performed ht).eq_drive_of_ignored hign]
  · simp [hign] at htaken

/-- Settles O24: an ignored operation meets no guard, and its only effect is its code. -/
theorem ignoredOperationChangesNothing : Obligations.IgnoredOperationChangesNothing :=
  fun _ _ hign => exec_of_ignored rfl hign

/-- Settles O26: in each clause the order of the tests decides the code, which is that of an ignored operation or
of a rejected word. -/
theorem statusPriority : Obligations.StatusPriority := by
  refine ⟨fun index r g b br s hi _ => ?_, fun s hi _ => ?_, fun id s hi => ?_, fun id s hi hid _ => ?_,
    fun id s hi hid hs => ?_, fun p w r s hd => deliver_error hd s⟩
  · exact exec_of_ignored (by simp [statusOf, setLedStatus, hi]) rfl
  · exact exec_of_ignored (by simp [statusOf, showStatus, hi]) rfl
  · exact exec_of_ignored (by simp [statusOf, completeStatus, hi]) rfl
  · exact exec_of_ignored (by simp [statusOf, completeStatus, hi, hid]) rfl
  · exact exec_of_ignored (by simp [statusOf, completeStatus, hi, hid, hs]) rfl

end Machine
end Sys2Proof
end

-- ==== Proofs: reset and hazards (spec/70_reset_and_hazards.md) ====
section
/-! Before the first Init and without the awaited notification. First that until an Init every operation leaves all
but the status output and the schedule (R211); then that a block in Transmitting stays there while no notification
matches (R232), the engine's own after a rebinding among them (R230). -/

namespace Sys2Proof
namespace Machine

open Config (Params)

/-! ### Until the first Init (R211) -/

/-- All is as in `s` but the status output, the schedule and the counters, and no colour is being written. -/
def SameOutsideTail (s t : State) : Prop :=
  (∀ i k stop out, t.progress ≠ .led i k stop out) ∧
    t = { s with statusOut := t.statusOut, gaps := t.gaps, progress := t.progress }

theorem SameOutsideTail.setGaps {s t : State} (h : SameOutsideTail s t) (gs : List (List AgentStep)) :
    SameOutsideTail s (t.setGaps gs) :=
  ⟨h.1, congrArg (State.setGaps · gs) h.2⟩

theorem SameOutsideTail.agentStep {cfg : Params} {s t : State} (h : SameOutsideTail s t) (hs : s.fsm = .idle)
    (hoff : s.engActive = false) (a : AgentStep) : SameOutsideTail s (t.agentStep cfg a) := by
  obtain ⟨hp, ht⟩ := h
  obtain ⟨c, hc⟩ := agentStep_of_idle cfg t a (by rw [ht]; exact hs) (by rw [ht]; exact hoff)
  rw [hc]
  exact ⟨hp, congrArg (fun u : State => { u with statusOut := c }) ht⟩

/-- R211: where the buffer lists no slot, a write of PrepareResetTail writes zero on zero. -/
theorem SameOutsideTail.advance {cfg : Params} {s t : State} (h : SameOutsideTail s t) (hb : s.buf = []) :
    SameOutsideTail s (t.advance cfg) := by
  obtain ⟨hp, ht⟩ := h
  have htb : t.buf = [] := by rw [ht]; exact hb
  cases hq : t.progress with
  | none => simpa [State.advance, hq, SameOutsideTail] using ht
  | led i k stop out => exact absurd hq (hp i k stop out)
  | tail a =>
    have hadv : t.advance cfg = t.setProgress ((Progress.tail a).next cfg) := by
      simp [State.advance, hq, State.memWrite, htb, Memory.write, State.setProgress]
    rw [hadv]
    refine ⟨fun i k stop out => ?_, congrArg (State.setProgress · _) ht⟩
    simp only [State.setProgress_progress, Progress.next]
    split <;> simp

/-- R211: PrepareResetTail on an empty buffer, with the block Idle and the engine inactive, changes only the status
output and the schedule. -/
theorem zeroTail_of_buf_nil (cfg : Params) {s : State} (hb : s.buf = []) (hs : s.fsm = .idle)
    (hoff : s.engActive = false) (hp : s.progress = .none) :
    ∃ c gs, s.zeroTail cfg = { s with gaps := gs, statusOut := c } := by
  obtain ⟨-, ht⟩ := runWrites_keeps cfg (SameOutsideTail s) (fun _ a h => h.agentStep hs hoff a)
    (fun _ gs h => h.setGaps gs) (fun _ h => h.advance hb) (tailCount cfg s.alc)
    (s.setProgress (.tail (tailStart s.alc))) ⟨by simp, rfl⟩
  have hput := congrArg (State.setProgress · .none) ht
  refine ⟨(s.zeroTail cfg).statusOut, (s.zeroTail cfg).gaps, hput.trans ?_⟩
  rw [← hp]
  rfl

/-- R211: before Init, any operation but Init: PrepareResetTail finds an empty buffer, the others are ignored. -/
theorem Inv.exec_of_not_init {s : State} (h : Inv Config.params s) (h0 : s.init = false) {i : Instr}
    (hne : ∀ hd ch n, i ≠ .init hd ch n) :
    ∃ c gs, exec i s = .next { s with gaps := gs, statusOut := c } := by
  cases i with
  | init hd ch n => exact absurd rfl (hne hd ch n)
  | prep =>
    obtain ⟨-, hbuf, hfsm, hoff, -⟩ := h.uninit h0
    obtain ⟨c, gs, ht⟩ := zeroTail_of_buf_nil Config.params hbuf hfsm hoff h.noProgress
    exact ⟨some .ok, gs, by rw [exec_prep h.engineFault, ht]; rfl⟩
  | setled | fillall | showStrip | complete =>
    exact ⟨_, s.gaps, exec_of_ignored (c := .ignUninit)
      (by simp [statusOf, setLedStatus, fillAllStatus, showStatus, completeStatus, h0]) rfl⟩

/-- R211: from a state before Init, any operations other than Init. -/
theorem Inv.execAll_of_not_init {s : State} (h : Inv Config.params s) (h0 : s.init = false) {is : List Instr}
    (hne : ∀ hd ch n, .init hd ch n ∉ is) :
    ∃ c gs, execAll is s = .next { s with gaps := gs, statusOut := c } := by
  induction is generalizing s with
  | nil => exact ⟨s.statusOut, s.gaps, rfl⟩
  | cons i is ih =>
    obtain ⟨c, gs, hi⟩ := h.exec_of_not_init h0 (i := i)
      fun hd ch n heq => hne hd ch n (heq ▸ List.mem_cons_self)
    obtain ⟨d, hs, his⟩ := ih (s := { s with gaps := gs, statusOut := c }) { h with } h0
      fun hd ch n hm => hne hd ch n (List.mem_cons_of_mem _ hm)
    exact ⟨d, hs, by simp only [execAll, hi, his]⟩

/-- Settles O46: the reset state is a state before Init, whatever the schedule. -/
theorem nothingHappensUntilInit : Obligations.NothingHappensUntilInit := fun _ gs hne =>
  (invariantAtReset.setGaps gs).execAll_of_not_init rfl hne

/-! ### Without a matching notification (R230, R232) -/

/-- What matches is decided by `HND` and `ENG_INST` (R153, R162). -/
theorem AgentStep.isMatch_congr {cfg : Params} {s t : State} (hh : t.hnd = s.hnd) (he : t.engInst = s.engInst)
    (a : AgentStep) : a.isMatch cfg t ↔ a.isMatch cfg s := by
  cases a <;> simp [AgentStep.isMatch, hh, he]

/-- R155: of the steps of the other agents only a matching notification leaves Transmitting. -/
theorem agentStep_fsm_transmitting {cfg : Params} {s : State} {a : AgentStep} (hs : s.fsm = .transmitting)
    (hno : ¬ a.isMatch cfg s) : (s.agentStep cfg a).fsm = .transmitting := by
  rcases agentStep_cases cfg s a with h | h | ⟨id, h, ha⟩ | ⟨_, _, h⟩ <;> rw [h]
  · exact hs
  · exact hs
  · rcases onTransferComplete_cases cfg id s with ⟨_, h'⟩ | ⟨_, hid, _, _⟩
    · rw [h']
      exact hs
    · refine absurd ?_ hno
      rcases ha with ⟨rfl, heq⟩ | ⟨w, rfl, hw⟩
      · exact heq.symm.trans hid
      · rwa [hid] at hw
  · exact hs

/-- In Transmitting, and nothing scheduled inside operations matches. -/
def Unanswered (cfg : Params) (s : State) : Prop :=
  s.fsm = .transmitting ∧ ∀ g ∈ s.gaps, ∀ a ∈ g, ¬ a.isMatch cfg s

theorem foldl_agentStep_fsm_transmitting {cfg : Params} {as : List AgentStep} {s : State}
    (hs : s.fsm = .transmitting) (hno : ∀ a ∈ as, ¬ a.isMatch cfg s) :
    (as.foldl (State.agentStep cfg) s).fsm = .transmitting := by
  induction as generalizing s with
  | nil => exact hs
  | cons a as ih =>
    refine ih (agentStep_fsm_transmitting hs (hno a List.mem_cons_self)) fun b hb => ?_
    rw [AgentStep.isMatch_congr (agentStep_hnd cfg s a) (agentStep_engInst cfg s a)]
    exact hno b (List.mem_cons_of_mem a hb)

theorem Unanswered.takeGap {cfg : Params} {s : State} (h : Unanswered cfg s) : Unanswered cfg (s.takeGap cfg) := by
  obtain ⟨hs, hno⟩ := h
  refine ⟨?_, fun g hg a ha => ?_⟩
  · unfold State.takeGap
    split
    · exact hs
    · rename_i g gs hgaps
      exact foldl_agentStep_fsm_transmitting (s := s.setGaps gs) hs (hno g (by simp [hgaps]))
  · rw [takeGap_gaps] at hg
    rw [AgentStep.isMatch_congr (takeGap_hnd cfg s) (takeGap_engInst cfg s)]
    exact hno g (List.mem_of_mem_tail hg) a ha

theorem Unanswered.advance {cfg : Params} {s : State} (h : Unanswered cfg s) : Unanswered cfg (s.advance cfg) := by
  simpa [Unanswered, AgentStep.isMatch_congr (advance_hnd cfg s) (advance_engInst cfg s)] using h

/-- R232: slot writes, with steps that do not match between them, stay in Transmitting. -/
theorem Unanswered.perform_fsm {cfg : Params} {s : State} (h : Unanswered cfg s) (p : Progress) (n : Nat) :
    (s.perform cfg p n).fsm = .transmitting := by
  suffices hruns : ∀ t, Unanswered cfg t → (t.runWrites cfg n).fsm = .transmitting from
    hruns (s.setProgress p) h
  induction n with
  | zero => exact fun t ht => ht.1
  | succ n ih => exact fun t ht => ih _ ht.takeGap.advance

/-- R155: of the operations only a completion leaves Transmitting, if nothing that matches falls inside. -/
theorem Performed.fsm_transmitting {cfg : Params} {i : Instr} {s t : State} (hp : Performed cfg s i t)
    (h : Unanswered cfg s) (hne : ∀ id, i ≠ .complete id) : t.fsm = .transmitting := by
  cases hp with
  | ignored | init => exact h.1
  | setled | fillall | prep => exact h.perform_fsm _ _
  | showStrip => rfl
  | complete id => exact absurd rfl (hne id)

/-- Settles O34: a command word carries no completion, and another agent's step is one that does not match. -/
theorem staysTransmittingUntilMatch : Obligations.StaysTransmittingUntilMatch := by
  intro s t h hs hev hno
  rcases step_cases h with ⟨_, rfl⟩ | ⟨w, es, i, _, hw, hp⟩ | ⟨w, es, r, _, _, rfl⟩ | ⟨a, es, hag, rfl⟩
  · exact hs
  · refine hp.fsm_transmitting ⟨hs, hno⟩ ?_
    rintro id rfl
    cases (decode_ok .cmd w _ hw).2
  · exact hs
  · exact agentStep_fsm_transmitting (s := s.setAgenda es) hs (hev (.agent a) (by simp [hag]))

/-- Settles O35: the notification is enabled, and `ENG_INST` fails the second test of the handler. -/
theorem rebindingLosesNotification : Obligations.RebindingLosesNotification := by
  intro s es hi hag hon hpos hinst
  obtain ⟨_, notify⟩ := stepRunsEngine
  rw [notify s es hag, if_pos ⟨hon, hpos⟩]
  exact exec_of_ignored (by simp [statusOf, completeStatus, hi, hinst]) rfl

end Machine
end Sys2Proof
end

-- ==== Proofs: test vectors (spec/95_test_vectors.md) ====
section
/-! The worked words of the spec. They are the encoder's own words, which `decodeOfEncode` reads back, but for two:
Show's has reserved bits set, and 0 has no operation's opcode. COMPLETE's is also tried on the wrong port. -/

namespace Sys2Proof

/-- R89: a word that names an operation of the other port is rejected as such. -/
theorem Names.decode_wrongPort {p : Port} {w : Word} {i : Instr} (h : Names w i) (hp : i.port ≠ p) :
    decode p w = .error .wrongPort := by
  simp [decode, h.decodeFields_eq, hp]

/-- R89: opcode 0 is reserved. -/
theorem Instr.opcode_ne_zero (i : Instr) : i.opcode ≠ 0x0#4 := by
  cases i <;> simp [Instr.opcode]

/-- R89: a word whose opcode is no operation's is rejected as reserved on either port. -/
theorem decode_reservedOpcode {p : Port} {w : Word} (h : ∀ i : Instr, opcodeOf w ≠ i.opcode) :
    decode p w = .error .reservedOpcode :=
  decode_reserved p w fun i hi => h i (names_of_decodeFields hi).opcode

/-- Settles O1: an operation's word decodes to it, whatever the reserved bits; of the two rejected words one
names an operation of the other port, and the other names none. -/
theorem specWordsDecode : Obligations.SpecWordsDecode := by
  refine ⟨?init, ?setled, ?fillall, ?prep, ?showStrip, ?complete, ?wrongPort, ?reserved⟩
  case init => exact decodeOfEncode (.init 1#16 1#8 2) rfl
  case setled => exact decodeOfEncode (.setled 1 0x12#8 0x34#8 0x56#8 100#8) rfl
  case fillall => exact decodeOfEncode (.fillall 255#8 128#8 1#8 50#8) rfl
  case prep => exact decodeOfEncode .prep rfl
  case showStrip => exact reservedBitsIgnored.1 .cmd _ _ .showStrip (decodeOfEncode .showStrip rfl) (by decide)
  case complete => exact decodeOfEncode (.complete 1#16) rfl
  case wrongPort => exact (names_encode (i := .complete 1#16) rfl).decode_wrongPort (by decide)
  case reserved => exact decode_reservedOpcode fun i => i.opcode_ne_zero.symm

end Sys2Proof
end
